-- ==== Sys2Proof/Word.lean ====
section
/-!
DEFINITION. The bit vectors of the block: operands, beats and bytes (spec/00_scope.md R6, R7; spec/30_encoding.md R72, R74).
-/

namespace Sys2Proof

/-- One byte of the output range buffers (20_memory.md R53). -/
abbrev Byte := BitVec 8

/-- A 32-bit operand or result: `W_CNT`, `W_SEGLEN` and `W_IDX` of R6. -/
abbrev Word32 := BitVec 32

/-- A 64-bit address, length or window operand: `W_ADDR` and `W_RLEN` of R6. -/
abbrev Word64 := BitVec 64

/-- A command beat (R72). -/
abbrev Beat := BitVec 256

/-- A response beat (R74). -/
abbrev RspBeat := BitVec 128

/-- The field `OPCODE` of a command beat, `OP` of a response beat. -/
abbrev OpByte := BitVec 8

/-- The field `CTX`: the number of a coalescer context (R72). -/
abbrev CtxNum := BitVec 4

/-- The field `PSHIFT`: log2 of the page size (R72). -/
abbrev PageShift := BitVec 6

end Sys2Proof
end

