-- ==== Sys2Proof/Syntax.lean ====
section
/-!
DEFINITION. The commands of the block, one constructor of `Instr` for each row of spec/opcode_table.json, with the
formats and the causes of an illegal command (spec/30_encoding.md R73, R76; spec/60_exceptions.md R202).
-/

namespace Sys2Proof

/-- A command with its operands: what a legal beat says (30_encoding.md R73, R76). Every operand is an unsigned field
of its width (R82). -/
inductive Instr where
  /-- `NOP`, 42_system.md R190. -/
  | nop
  /-- `RING_PRODUCE_RANGE`, 40_ring_indexer.md R106. -/
  | ringProduceRange (prod cons cap : Word32)
  /-- `RING_CONSUME_RANGE`, R107. -/
  | ringConsumeRange (prod cons cap : Word32)
  /-- `RING_ADVANCE`, R108. -/
  | ringAdvance (idx base cap : Word32)
  /-- `RING_OCCUPIED`, R109. -/
  | ringOccupied (prod cons cap : Word32)
  /-- `RING_FREE`, R110. -/
  | ringFree (prod cons cap : Word32)
  /-- `RING_CTG_OCCUPIED`, R111. -/
  | ringCtgOccupied (prod cons cap : Word32)
  /-- `RING_CTG_FREE`, R112. -/
  | ringCtgFree (prod cons cap : Word32)
  /-- `RING_VALID`, R113. -/
  | ringValid (prod cons cap : Word32)
  /-- `CO_START`, 41_segment_coalescer.md R156. -/
  | coStart (ctx : CtxNum) (maxOut : Word32) (windowOffset windowLength : Word64) (pageShift : PageShift)
  /-- `CO_SEG`, R157. -/
  | coSeg (ctx : CtxNum) (address : Word64) (length : Word32)
  /-- `CO_END`, R159. -/
  | coEnd (ctx : CtxNum)
  deriving DecidableEq, Repr

/-- The assigned operation codes of R76, by name. -/
inductive Opcode where
  | nop | ringProduceRange | ringConsumeRange | ringAdvance | ringOccupied | ringFree | ringCtgOccupied | ringCtgFree
  | ringValid | coStart | coSeg | coEnd
  deriving DecidableEq, Repr

/-- The five formats of R73. -/
inductive Format where
  | r | s | g | e | z
  deriving DecidableEq, Repr

/-- The causes of an illegal command (60_exceptions.md R202), in the order they are checked (R203). -/
inductive IllegalCause where
  /-- Cause 1, `RESERVED_OPCODE` (30_encoding.md R78). -/
  | reservedOpcode
  /-- Cause 2, `NONZERO_MBZ` (R79). -/
  | nonzeroMbz
  /-- Cause 3, `BAD_CONTEXT` (R77). -/
  | badContext
  /-- Cause 4, `OUT_OF_SEQUENCE` (R77). -/
  | outOfSequence
  deriving DecidableEq, Repr

end Sys2Proof
end

