-- ==== Sys2Proof/Decode.lean ====
section
/-!
DEFINITION. From a 256-bit command beat to a command or to the cause that makes it illegal, total on every beat
(spec/30_encoding.md R72, R73, R76 to R79), the encoder, and beats as bytes (spec/20_memory.md R54).
-/

namespace Sys2Proof

/-! ### Opcodes and formats (R76, R73) -/

/-- The `OPCODE` of each operation (R76). -/
def opcodeByte : Opcode → OpByte
  | .nop => 0x00#8
  | .ringProduceRange => 0x01#8
  | .ringConsumeRange => 0x02#8
  | .ringAdvance => 0x03#8
  | .ringOccupied => 0x04#8
  | .ringFree => 0x05#8
  | .ringCtgOccupied => 0x06#8
  | .ringCtgFree => 0x07#8
  | .ringValid => 0x08#8
  | .coStart => 0x10#8
  | .coSeg => 0x11#8
  | .coEnd => 0x12#8

/-- The operation an `OPCODE` selects; `none` where it is reserved: `0x09` to `0x0F` and `0x13` to `0xFF` (R78). -/
def opcodeOf (op : OpByte) : Option Opcode :=
  match op.toNat with
  | 0x00 => some .nop
  | 0x01 => some .ringProduceRange
  | 0x02 => some .ringConsumeRange
  | 0x03 => some .ringAdvance
  | 0x04 => some .ringOccupied
  | 0x05 => some .ringFree
  | 0x06 => some .ringCtgOccupied
  | 0x07 => some .ringCtgFree
  | 0x08 => some .ringValid
  | 0x10 => some .coStart
  | 0x11 => some .coSeg
  | 0x12 => some .coEnd
  | _ => none

/-- The format of each operation (R76). -/
def formatOf : Opcode → Format
  | .nop => .z
  | .ringProduceRange => .r
  | .ringConsumeRange => .r
  | .ringAdvance => .r
  | .ringOccupied => .r
  | .ringFree => .r
  | .ringCtgOccupied => .r
  | .ringCtgFree => .r
  | .ringValid => .r
  | .coStart => .s
  | .coSeg => .g
  | .coEnd => .e

/-- The must-be-zero mask of each format (R73, the second table). -/
def mbzMask : Format → Beat
  | .r => 0xffffffffffffffffffffffffffffffff000000000000000000000000ffffff00#256
  | .s => 0x00000000000000000000000000000000ffffffffffffffff00000000fffc0000#256
  | .g => 0xffffffffffffffff0000000000000000ffffffffffffffff00000000fffc3f00#256
  | .e => 0xfffffffffffffffffffffffffffffffffffffffffffffffffffffffffffc3f00#256
  | .z => 0xffffffffffffffffffffffffffffffffffffffffffffffffffffffffffffff00#256

/-! ### The fields of a command beat (R72) -/

/-- `OPCODE`, bits 7..0. -/
def fieldOpcode (b : Beat) : OpByte := b.extractLsb' 0 8
/-- `PSHIFT`, bits 13..8. -/
def fieldPshift (b : Beat) : PageShift := b.extractLsb' 8 6
/-- `CTX`, bits 17..14. -/
def fieldCtx (b : Beat) : CtxNum := b.extractLsb' 14 4
/-- `W1`, bits 63..32. -/
def fieldW1 (b : Beat) : Word32 := b.extractLsb' 32 32
/-- `W2`, bits 95..64. -/
def fieldW2 (b : Beat) : Word32 := b.extractLsb' 64 32
/-- `W3`, bits 127..96. -/
def fieldW3 (b : Beat) : Word32 := b.extractLsb' 96 32
/-- `D1`, bits 191..128. -/
def fieldD1 (b : Beat) : Word64 := b.extractLsb' 128 64
/-- `D2`, bits 255..192. -/
def fieldD2 (b : Beat) : Word64 := b.extractLsb' 192 64

/-- The operands of a legal beat, each taken from the field that its format gives it (R73, R82). -/
def readOperands (o : Opcode) (b : Beat) : Instr :=
  match o with
  | .nop => .nop
  | .ringProduceRange => .ringProduceRange (fieldW1 b) (fieldW2 b) (fieldW3 b)
  | .ringConsumeRange => .ringConsumeRange (fieldW1 b) (fieldW2 b) (fieldW3 b)
  | .ringAdvance => .ringAdvance (fieldW1 b) (fieldW2 b) (fieldW3 b)
  | .ringOccupied => .ringOccupied (fieldW1 b) (fieldW2 b) (fieldW3 b)
  | .ringFree => .ringFree (fieldW1 b) (fieldW2 b) (fieldW3 b)
  | .ringCtgOccupied => .ringCtgOccupied (fieldW1 b) (fieldW2 b) (fieldW3 b)
  | .ringCtgFree => .ringCtgFree (fieldW1 b) (fieldW2 b) (fieldW3 b)
  | .ringValid => .ringValid (fieldW1 b) (fieldW2 b) (fieldW3 b)
  | .coStart => .coStart (fieldCtx b) (fieldW1 b) (fieldD1 b) (fieldD2 b) (fieldPshift b)
  | .coSeg => .coSeg (fieldCtx b) (fieldD1 b) (fieldW1 b)
  | .coEnd => .coEnd (fieldCtx b)

/-- Decoding, total on every beat (R77): the checks of causes 1 and 2 in their order. Causes 3 and 4 depend on the
parameters and on the state; the meanings of the coalescer commands check them next. -/
def decode (b : Beat) : Except IllegalCause Instr :=
  match opcodeOf (fieldOpcode b) with
  | none => .error .reservedOpcode
  | some o => if b &&& mbzMask (formatOf o) ≠ 0#256 then .error .nonzeroMbz else .ok (readOperands o b)

/-- The operation of a command. -/
def instrOpcode : Instr → Opcode
  | .nop => .nop
  | .ringProduceRange _ _ _ => .ringProduceRange
  | .ringConsumeRange _ _ _ => .ringConsumeRange
  | .ringAdvance _ _ _ => .ringAdvance
  | .ringOccupied _ _ _ => .ringOccupied
  | .ringFree _ _ _ => .ringFree
  | .ringCtgOccupied _ _ _ => .ringCtgOccupied
  | .ringCtgFree _ _ _ => .ringCtgFree
  | .ringValid _ _ _ => .ringValid
  | .coStart _ _ _ _ _ => .coStart
  | .coSeg _ _ _ => .coSeg
  | .coEnd _ => .coEnd

/-! ### The encoder -/

/-- A beat from the fields of R72, `RSVD` zero. -/
def assembleBeat (op : OpByte) (pshift : PageShift) (ctx : CtxNum) (w1 w2 w3 : Word32) (d1 d2 : Word64) : Beat :=
  (d2 ++ d1 ++ w3 ++ w2 ++ w1 ++ 0#14 ++ ctx ++ pshift ++ op).cast (by decide)

/-- A format `R` beat (R73). -/
def assembleRing (o : Opcode) (w1 w2 w3 : Word32) : Beat := assembleBeat (opcodeByte o) 0#6 0#4 w1 w2 w3 0#64 0#64

/-- The beat of a command: its operands in the fields of its format, every other field zero (R73, R76, R83). -/
def encode : Instr → Beat
  | .nop => assembleBeat (opcodeByte .nop) 0#6 0#4 0#32 0#32 0#32 0#64 0#64
  | .ringProduceRange p c k => assembleRing .ringProduceRange p c k
  | .ringConsumeRange p c k => assembleRing .ringConsumeRange p c k
  | .ringAdvance i b k => assembleRing .ringAdvance i b k
  | .ringOccupied p c k => assembleRing .ringOccupied p c k
  | .ringFree p c k => assembleRing .ringFree p c k
  | .ringCtgOccupied p c k => assembleRing .ringCtgOccupied p c k
  | .ringCtgFree p c k => assembleRing .ringCtgFree p c k
  | .ringValid p c k => assembleRing .ringValid p c k
  | .coStart c m off len ps => assembleBeat (opcodeByte .coStart) ps c m 0#32 0#32 off len
  | .coSeg c a l => assembleBeat (opcodeByte .coSeg) 0#6 c l 0#32 0#32 a 0#64
  | .coEnd c => assembleBeat (opcodeByte .coEnd) 0#6 c 0#32 0#32 0#32 0#64 0#64

/-! ### Little-endian bytes (20_memory.md R53, R54) -/

/-- The `n` low bytes of a bit vector in little-endian order: byte `j` holds bits `8j+7 .. 8j`. -/
def leBytes (n : Nat) {w : Nat} (v : BitVec w) : List Byte := (List.range n).map fun j => v.extractLsb' (8 * j) 8

/-- The bit vector of width `w` whose little-endian bytes are given. -/
def ofLeBytes (w : Nat) (bs : List Byte) : BitVec w :=
  bs.foldr (fun b v => v <<< 8 ||| b.setWidth w) 0#w

/-- The 32 bytes in which a command beat travels over a narrower bus (R54). -/
def beatBytes (b : Beat) : List Byte := leBytes 32 b

/-- The command beat of 32 transferred bytes (R54). -/
def beatOfBytes (bs : List Byte) : Beat := ofLeBytes 256 bs

/-- The 16 bytes in which a response beat travels (R54). -/
def rspBytes (b : RspBeat) : List Byte := leBytes 16 b

/-! ### Beats as the opcode table numbers them -/

/-- The beat whose low `nbits` bits are those of `w` and whose other bits are 0. -/
def tableBeat (nbits w : Nat) : Beat := BitVec.ofNat 256 (w % 2 ^ nbits)

/-- The command the decoder reads from the beat whose bits are `w`, numbered as spec/opcode_table.json numbers them;
`none` where the beat is illegal. A beat is the only word of a command (R81). -/
def decodeTableWord (nbits w : Nat) : Option Instr :=
  match decode (tableBeat nbits w) with
  | .ok i => some i
  | .error _ => none

end Sys2Proof
end

