-- ==== Sys2Proof/Machine/Operands.lean ====
section
/-!
DEFINITION. Operands as exact integers, their one reduction to a width, and the arithmetic the operations share: the
doubled index space of a ring (spec/40_ring_indexer.md R100 to R104) and the tail of a window
(spec/41_segment_coalescer.md R152).
-/

namespace Sys2Proof.Machine

/-- An operand or register as the unsigned integer it stands for (00_scope.md R8, 30_encoding.md R82). -/
def exact {n : Nat} (v : BitVec n) : Int := (v.toNat : Int)

/-- `trunc_32(v)` = `v mod 2^32` (R8). -/
def trunc32 (v : Int) : Word32 := BitVec.ofInt 32 v

/-- `trunc_64(v)` = `v mod 2^64` (R8). -/
def trunc64 (v : Int) : Word64 := BitVec.ofInt 64 v

/-! ### The doubled index space (R100 to R104), on exact integers -/

/-- `M(cap)` (R100). -/
def doubled (cap : Int) : Int := 2 * cap

/-- `unwrap(p, c, cap)`: the source's `prod'` (R100). -/
def unwrap (p c cap : Int) : Int := if p < c then p + doubled cap else p

/-- `Occ(p, c, cap)` (R100). -/
def occ (p c cap : Int) : Int := unwrap p c cap - c

/-- `Fre(p, c, cap)` (R100). -/
def fre (p c cap : Int) : Int := cap + c - unwrap p c cap

/-- A range `(base, start_idx, end_idx)` of physical slots (R101). -/
structure SlotRange where
  base : Int
  start : Int
  stop : Int
  deriving DecidableEq, Repr

/-- `ProduceRange(p, c, cap)` (R102). -/
def produceRange (p c cap : Int) : SlotRange :=
  if p < cap then ⟨0, p, if c < cap then cap else c - cap⟩
  else ⟨cap, p - cap, if c < cap then c else cap⟩

/-- `ConsumeRange(p, c, cap)` (R103). -/
def consumeRange (p c cap : Int) : SlotRange :=
  if c < cap then ⟨0, c, if p < cap then p else cap⟩
  else ⟨cap, c - cap, if p < cap then cap else p - cap⟩

/-- The size `e - s` of a range (R111, R112); negative only on invalid input. -/
def rangeSize (r : SlotRange) : Int := r.stop - r.start

/-- `Advance(idx, base, cap)` (R104). -/
def advance (idx base cap : Int) : Int := if idx = cap then cap - base else base + idx

/-! ### The window of a coalescer transaction -/

/-- The page size `2^PSHIFT` (R82, R152). -/
def pageSize (ps : PageShift) : Nat := 2 ^ ps.toNat

/-- `Tail(off, wlen, ps)` (R152): the bytes from the window's end to the end of its last page. -/
def tail (off wlen : Word64) (ps : PageShift) : Nat :=
  let rem := (off.toNat + wlen.toNat) % pageSize ps
  if rem = 0 then 0 else (pageSize ps - rem) &&& (pageSize ps - 1)

end Sys2Proof.Machine
end

