-- ==== Sys2Proof/Config.lean ====
section
/-!
DEFINITION. What an implementation fixes (the OPEN parameters of spec/00_scope.md R6) and the free values
(spec/93_implementation_defined.md I1, I2, I14).
-/

namespace Sys2Proof.Config

/-- The OPEN parameters of 00_scope.md R6 that a rule of the spec depends on. The spec: "`OPEN` marks a parameter the
model takes as an argument". State carries this record and no step changes it, so a statement about every state holds
for every value of the parameters (log 2). The two counts are stored less one, so that every value is a legal one. -/
structure Params where
  /-- `CO_CONTEXTS` less one: `CO_CONTEXTS` is 1 to 16. -/
  coContextsLess1 : Fin 16
  /-- `OUT_BASE[c]`: the byte address of entry 0 of context `c`'s output range buffer. -/
  outBase : Vector Nat 16
  /-- `RSP_DEPTH` less one: the response buffer holds at least one response. -/
  rspDepthLess1 : Nat
  deriving DecidableEq, Repr

/-- `CO_CONTEXTS` (R6, 93 I16). -/
def Params.coContexts (p : Params) : Nat := p.coContextsLess1.val + 1

/-- `RSP_DEPTH` (R6, 93 I18). -/
def Params.rspDepth (p : Params) : Nat := p.rspDepthLess1 + 1

/-- `OUT_BASE[c]` (R6, 93 I17). -/
def Params.outBaseOf (p : Params) (c : CtxNum) : Nat := p.outBase[c.toNat]

/-- The parameters of `State.reset`. DESIGN CHOICE (log 2), unsafe: the spec leaves all three OPEN. Two contexts are
what the tables of 95_test_vectors.md assume; the buffers of the sixteen context numbers stand 2^36 bytes apart, the
room of 2^32 entries of 16 bytes, so that they do not overlap (20_memory.md R51). -/
def resetParams : Params where
  coContextsLess1 := 1
  outBase := Vector.ofFn fun c => c.val * 2 ^ 36
  rspDepthLess1 := 255

/-- FREE VALUE: the `n`-th value `any_64` that the model draws (00_scope.md R9, 93 I1 and I2; log 4). -/
opaque any64 : Nat → Word64

/-- FREE VALUE: the `n`-th draw of whether a command in flight at reset had taken effect (70_reset_and_hazards.md R231,
93 I14; log 5). -/
opaque tookEffect : Nat → Bool

end Sys2Proof.Config
end

