-- ==== Sys2Proof/Machine/State.lean ====
section
/-!
DEFINITION. The state of the block as plain data (spec/10_state.md), the reasons a step could stop, and the state after
reset (spec/70_reset_and_hazards.md R230).
-/

namespace Sys2Proof.Machine

/-- Memory as a list of (byte address, byte) pairs with strictly rising addresses. An address that is not listed has no
value: the block has not written it (log 3). -/
abbrev Memory := List Host.Cell

/-- The registers of one coalescer context (10_state.md R25), its specification variable `CO_UNDEF` (R27) and the
model's own `accCarry` (log 19). -/
structure CoRegs where
  /-- `CO_BUSY`: a transaction is open. -/
  coBusy : Bool
  /-- `CFG_WOFF`: `window_offset` of the open transaction. -/
  cfgWoff : Word64
  /-- `CFG_WLEN`: `window_length` of the open transaction. -/
  cfgWlen : Word64
  /-- `CFG_MAXOUT`: the number of output entries the caller provided. -/
  cfgMaxout : Word32
  /-- `CFG_PSHIFT`: log2 of the page size. -/
  cfgPshift : PageShift
  /-- `ACC_V`: an accumulated range is open. -/
  accV : Bool
  /-- `ACC_ADDR`: start address of the open accumulated range. -/
  accAddr : Word64
  /-- `ACC_LEN`: length of the open accumulated range. -/
  accLen : Word64
  /-- The model's own, no register: bit 64 of the open range's exact length, of which `ACC_LEN` holds the 64 bits below
  (log 19). Adjacency is on the exact length (41_segment_coalescer.md R151, R167). -/
  accCarry : Bool
  /-- `CO_COUNT`: ranges closed so far in this transaction. -/
  coCount : Word32
  /-- `CO_UNDEF`: the transaction has received an input the source calls undefined (R27). -/
  coUndef : Bool
  deriving DecidableEq, Repr

/-- A context after reset: every register 0 (R25, R230). -/
def CoRegs.reset : CoRegs where
  coBusy := false
  cfgWoff := 0#64
  cfgWlen := 0#64
  cfgMaxout := 0#32
  cfgPshift := 0#6
  accV := false
  accAddr := 0#64
  accLen := 0#64
  accCarry := false
  coCount := 0#32
  coUndef := false

/-- One `OutWrite(c, k, a, l)` (20_memory.md R51). -/
structure OutWrite where
  ctx : CtxNum
  index : Word32
  addr : Word64
  len : Word64
  deriving DecidableEq, Repr

/-- The fields of a response beat (30_encoding.md R74). -/
structure Response where
  op : OpByte
  ill : Bool := false
  ilc : BitVec 3 := 0#3
  rv : Bool := false
  ovf : Bool := false
  busy : Bool := false
  r0 : Word32 := 0#32
  r1 : Word32 := 0#32
  r2 : Word32 := 0#32
  deriving DecidableEq, Repr

/-- A command whose response is in the response buffer (10_state.md R30): its response, and the write to OUT it
performed, if any. The write stands here until the response is taken, because reset may still undo it
(70_reset_and_hazards.md R231; log 5). -/
structure InFlight where
  rsp : Response
  write : Option OutWrite
  deriving DecidableEq, Repr

/-- An event at the block's ports (30_encoding.md R70; 70_reset_and_hazards.md R230). -/
inductive PortEvent where
  /-- An issuer offers a command beat. -/
  | command (beat : Beat)
  /-- The issuer takes the oldest response. -/
  | takeResponse
  /-- Reset is asserted. -/
  | reset
  deriving DecidableEq, Repr

/-- What a coalescer operation leaves: the context's registers, the write it performed and the draw counter. -/
structure CoResult where
  regs : CoRegs
  write : Option OutWrite
  draws : Nat
  deriving DecidableEq, Repr

/-- The state of the block, with the parameters it was built with and the model's own view of the world at its ports. -/
structure State where
  /-- The OPEN parameters (00_scope.md R6): no step changes them (log 2). -/
  params : Config.Params
  /-- The coalescer's contexts (10_state.md R25). Those at or above `CO_CONTEXTS` do not exist: no command reaches
  them, and they stay at reset (log 8). -/
  contexts : Vector CoRegs 16
  /-- The response buffer, oldest first (R30). -/
  rspBuf : List InFlight
  /-- OUT as the commands whose response has been taken left it. OUT with the writes of the commands in flight is
  `State.out` (log 5). -/
  settled : Memory
  /-- The model's own: the events the world will present at the ports, in their order (log 1, log 7). -/
  port : List PortEvent
  /-- The model's own: the response beats the issuers have taken, oldest first (log 10). -/
  delivered : List RspBeat
  /-- The model's own: how many free values have been drawn (log 4). -/
  draws : Nat
  deriving DecidableEq, Repr

/-- Why the machine stops with a fault: never. No behaviour of this block faults (93_implementation_defined.md section 1;
60_exceptions.md R200), so the type has no constructor and no claim can rest on a fault: safe (log 13). -/
inductive Fault where
  deriving DecidableEq, Repr

/-- Why the model refuses a command. -/
inductive Refusal where
  /-- Raised by `exec` alone, for a command that has no meaning yet: safe. No arm raises it. -/
  | notModelled (mnemonic : String)
  deriving DecidableEq, Repr

/-- The block with parameters `p` right after reset (70_reset_and_hazards.md R230): every register of every context
and every `CO_UNDEF` 0, the response buffer empty, nothing written to OUT by the block. -/
def State.resetWith (p : Config.Params) : State where
  params := p
  contexts := Vector.replicate 16 CoRegs.reset
  rspBuf := []
  settled := []
  port := []
  delivered := []
  draws := 0

/-- The state after reset, with the parameters of `Config.resetParams` (DESIGN CHOICE, log 2). -/
def State.reset : State := State.resetWith Config.resetParams

end Sys2Proof.Machine
end

