-- ==== Sys2Proof/Machine/Flags.lean ====
section
/-!
DEFINITION. The status bits of a response and the response beat they stand in (spec/30_encoding.md R74, R75;
spec/40_ring_indexer.md R105; spec/60_exceptions.md R201, R202).
-/

namespace Sys2Proof.Machine

/-- `Valid(p, c, cap)` (40_ring_indexer.md R100). -/
def ringValid (p c cap : Int) : Bool := decide (p < doubled cap ∧ c < doubled cap ∧ occ p c cap ≤ cap)

/-- `AdvOK(idx, base, cap)` (R105). -/
def advOk (idx base cap : Int) : Bool :=
  decide (1 ≤ cap ∧ (base = 0 ∨ base = cap) ∧ idx ≤ cap ∧ advance idx base cap < 2 ^ 32)

/-- `OVF`: `total_count > max_out` (41_segment_coalescer.md R159). -/
def overflow (total maxOut : Word32) : Bool := decide (maxOut.toNat < total.toNat)

/-- `ILC` of a cause (60_exceptions.md R202). -/
def causeCode : IllegalCause → BitVec 3
  | .reservedOpcode => 1#3
  | .nonzeroMbz => 2#3
  | .badContext => 3#3
  | .outOfSequence => 4#3

/-- The illegal-command response (R201). -/
def illegalResponse (op : OpByte) (cause : IllegalCause) : Response :=
  { op := op, ill := true, ilc := causeCode cause }

/-- The response of a RING operation with one result: `R1 = R2 = 0` (R75). -/
def ringResponse (o : Opcode) (rv : Bool) (r0 : Int) : Response :=
  { op := opcodeByte o, rv := rv, r0 := trunc32 r0 }

/-- The response of a RING operation that returns a range (R106, R107). -/
def rangeResponse (o : Opcode) (rv : Bool) (r : SlotRange) : Response :=
  { op := opcodeByte o, rv := rv, r0 := trunc32 r.base, r1 := trunc32 r.start, r2 := trunc32 r.stop }

/-- The 128-bit response beat (R74): bits 31..15 are 0. -/
def responseBeat (r : Response) : RspBeat :=
  (r.r2 ++ r.r1 ++ r.r0 ++ 0#17 ++ BitVec.ofBool r.busy ++ BitVec.ofBool r.ovf ++ BitVec.ofBool r.rv ++ r.ilc ++
    BitVec.ofBool r.ill ++ r.op).cast (by decide)

end Sys2Proof.Machine
end

