-- ==== Sys2Proof/WellFormed.lean ====
section
/-!
DEFINITION. The check on a command that depends on the parameters alone: a coalescer command names a context that
exists (spec/30_encoding.md R77, cause 3). Every other check is made by the types (an operand has its field's width,
R82), by decoding (causes 1 and 2) or against the state (cause 4).
-/

namespace Sys2Proof

/-- Context `c` is one of `0 .. CO_CONTEXTS - 1` (10_state.md R25). -/
def ctxExists (p : Config.Params) (c : CtxNum) : Bool := decide (c.toNat < p.coContexts)

/-- The command is not illegal by its context number (R77: "`beat[17:14] >= CO_CONTEXTS`" is cause 3). -/
def WellFormed (p : Config.Params) : Instr → Bool
  | .nop => true
  | .ringProduceRange _ _ _ => true
  | .ringConsumeRange _ _ _ => true
  | .ringAdvance _ _ _ => true
  | .ringOccupied _ _ _ => true
  | .ringFree _ _ _ => true
  | .ringCtgOccupied _ _ _ => true
  | .ringCtgFree _ _ _ => true
  | .ringValid _ _ _ => true
  | .coStart c _ _ _ _ => ctxExists p c
  | .coSeg c _ _ => ctxExists p c
  | .coEnd c => ctxExists p c

end Sys2Proof
end

