-- ==== Sys2Proof/Machine/Ops.lean ====
section
/-!
DEFINITION. The named operations over memory, contexts, the response buffer and the ports: every meaning is written in
them (spec/10_state.md, spec/20_memory.md, spec/41_segment_coalescer.md R157, R158, spec/60_exceptions.md R201,
spec/70_reset_and_hazards.md).
-/

namespace Sys2Proof.Machine

/-! ### Byte memory in canonical form -/

/-- The canonical form: addresses strictly rising. An unlisted address has no value, so no entry equals what an
unlisted address reads as (log 3). -/
def Memory.wf (m : Memory) : Bool := decide (m.Pairwise fun x y => x.1 < y.1)

/-- The byte at an address; `none` where nothing was written (log 3). -/
def Memory.read : Memory → Nat → Option Byte
  | [], _ => none
  | (x, v) :: rest, a => if x = a then some v else Memory.read rest a

/-- Write one byte, keeping the addresses rising. -/
def Memory.write : Memory → Nat → Byte → Memory
  | [], a, b => [(a, b)]
  | (x, v) :: rest, a, b =>
    if a < x then (a, b) :: (x, v) :: rest
    else if a = x then (a, b) :: rest
    else (x, v) :: Memory.write rest a b

/-- Write consecutive bytes from an address up. -/
def Memory.writeBytes : Memory → Nat → List Byte → Memory
  | m, _, [] => m
  | m, a, b :: bs => Memory.writeBytes (Memory.write m a b) (a + 1) bs

/-- The `n` bytes from an address up; `none` if one of them has no value. -/
def Memory.readBytes (m : Memory) (a : Nat) : Nat → Option (List Byte)
  | 0 => some []
  | n + 1 =>
    match Memory.read m a, Memory.readBytes m (a + 1) n with
    | some b, some bs => some (b :: bs)
    | _, _ => none

/-! ### The output range buffers (20_memory.md R51, R53) -/

/-- The byte address of entry `k` of context `c`: `OUT_BASE[c] + 16*k` (R53), an exact integer (log 12). -/
def entryAddr (p : Config.Params) (c : CtxNum) (k : Word32) : Nat := p.outBaseOf c + 16 * k.toNat

/-- The 16 bytes of an entry: the address, then the length, each little-endian (R53). -/
def entryBytes (a l : Word64) : List Byte := leBytes 8 a ++ leBytes 8 l

/-- OUT after one `OutWrite` (R51, R56: both fields, the 16 bytes of its entry and no other). -/
def applyWrite (p : Config.Params) (m : Memory) (w : OutWrite) : Memory :=
  Memory.writeBytes m (entryAddr p w.ctx w.index) (entryBytes w.addr w.len)

/-- OUT after a list of writes, the first one first. -/
def applyWrites (p : Config.Params) (m : Memory) (ws : List OutWrite) : Memory := ws.foldl (applyWrite p) m

/-- The writes of the commands in the response buffer, oldest first. -/
def inFlightWrites (buf : List InFlight) : List OutWrite := buf.filterMap fun f => f.write

/-- OUT as it stands: every executed command's write has taken effect (R58). -/
def State.out (s : State) : Memory := applyWrites s.params s.settled (inFlightWrites s.rspBuf)

/-- The byte of OUT at an address. -/
def State.outByte (s : State) (a : Nat) : Option Byte := Memory.read s.out a

/-- An entry read from a memory: its address and length fields (R53). -/
def readEntry (p : Config.Params) (m : Memory) (c : CtxNum) (k : Word32) : Option (Word64 × Word64) :=
  match Memory.readBytes m (entryAddr p c k) 8, Memory.readBytes m (entryAddr p c k + 8) 8 with
  | some ab, some lb => some (ofLeBytes 64 ab, ofLeBytes 64 lb)
  | _, _ => none

/-- Entry `k` of context `c` in OUT as it stands. -/
def State.outEntry (s : State) (c : CtxNum) (k : Word32) : Option (Word64 × Word64) := readEntry s.params s.out c k

/-- What an outside agent may read of entry `k` of context `c` (20_memory.md R56, R59; 93 I13): what the delivered
commands left, or what any command in flight has written there. A memory without 16-byte atomicity (`atomic` false)
may also show the address of one of these with the length of another. The block itself reads nothing (R50; log 9). -/
def State.observable (s : State) (atomic : Bool) (c : CtxNum) (k : Word32) : List (Option (Word64 × Word64)) :=
  let whole := readEntry s.params s.settled c k ::
    ((inFlightWrites s.rspBuf).filter fun w => w.ctx == c && w.index == k).map fun w => some (w.addr, w.len)
  if atomic then whole
  else whole ++ whole.flatMap fun x => whole.map fun y =>
    match x, y with
    | some (a, _), some (_, l) => some (a, l)
    | _, _ => none

/-! ### The coalescer's contexts (10_state.md R25) -/

/-- The registers of context `c`. -/
def State.context (s : State) (c : CtxNum) : CoRegs := s.contexts[c.toNat]

/-- Replace the registers of context `c`; no other context changes (R25). -/
def State.setContext (s : State) (c : CtxNum) (r : CoRegs) : State := { s with contexts := s.contexts.set c.toNat r }

/-! ### Responses (30_encoding.md R71; 10_state.md R30) -/

/-- A command completes: its one response, with the write it performed, goes to the end of the response buffer. -/
def State.respond (s : State) (r : Response) (w : Option OutWrite) : State :=
  { s with rspBuf := s.rspBuf ++ [⟨r, w⟩] }

/-- `raise IllegalCommand(cause)` (60_exceptions.md R201): the illegal-command response and no other effect. This is the
block's only exception-like event; nothing is saved and nothing returns from it (R204, R205). -/
def raiseIllegal (op : OpByte) (cause : IllegalCause) (s : State) : State := s.respond (illegalResponse op cause) none

/-- A coalescer operation completes in context `c`: its registers, its write and its response take effect. -/
def State.complete (s : State) (c : CtxNum) (x : CoResult) (r : Response) : State :=
  ({ s.setContext c x.regs with draws := x.draws }).respond r x.write

/-- The check of cause 3, then the effect (30_encoding.md R77). -/
def withContext (o : Opcode) (c : CtxNum) (s : State) (effect : State) : State :=
  if ctxExists s.params c then effect else raiseIllegal (opcodeByte o) .badContext s

/-- The checks of causes 3 and 4 in their order, then the effect (30_encoding.md R77). -/
def withOpenContext (o : Opcode) (c : CtxNum) (s : State) (effect : State) : State :=
  withContext o c s (if (s.context c).coBusy then effect else raiseIllegal (opcodeByte o) .outOfSequence s)

/-! ### The coalescer's datapath (41_segment_coalescer.md R156 to R159) -/

/-- The registers `CO_START` leaves (R156); `CO_UNDEF` by condition U1 (R155). -/
def startRegs (maxOut : Word32) (off wlen : Word64) (ps : PageShift) : CoRegs where
  coBusy := true
  cfgWoff := off
  cfgWlen := wlen
  cfgMaxout := maxOut
  cfgPshift := ps
  accV := false
  accAddr := 0#64
  accLen := 0#64
  accCarry := false
  coCount := 0#32
  coUndef := wlen == 0#64

/-- The address of the open range as `Close` writes it, exact: the first trim advances entry 0 (R158). -/
def closedAddr (r : CoRegs) : Int :=
  if r.coCount = 0#32 then exact r.accAddr + exact r.cfgWoff else exact r.accAddr

/-- The length of the open range as `Close` writes it, exact and possibly negative: the first trim on entry 0, the last
trim on the last range (R158). -/
def closedLen (isLast : Bool) (r : CoRegs) : Int :=
  exact r.accLen - (if r.coCount = 0#32 then exact r.cfgWoff else 0) -
    (if isLast then (tail r.cfgWoff r.cfgWlen r.cfgPshift : Int) else 0)

/-- `CO_COUNT <- min(k + 1, 2^32 - 1)` (R158). -/
def bumpCount (k : Word32) : Word32 := BitVec.ofNat 32 (min (k.toNat + 1) (2 ^ 32 - 1))

/-- The entry `Close` writes for context `c` (R158): the trimmed range, or two free values under a condition U1 to U5
(R155). The draw counter moves on by the values drawn. -/
def closedEntry (isLast : Bool) (c : CtxNum) (r : CoRegs) (n : Nat) : OutWrite × Nat :=
  if r.coUndef ∨ closedLen isLast r < 0 ∨ 2 ^ 64 ≤ closedAddr r then
    (⟨c, r.coCount, Config.any64 n, Config.any64 (n + 1)⟩, n + 2)
  else (⟨c, r.coCount, trunc64 (closedAddr r), trunc64 (closedLen isLast r)⟩, n)

/-- `Close(is_last)` for context `c` (R158). -/
def closeRange (isLast : Bool) (c : CtxNum) (r : CoRegs) (n : Nat) : CoResult :=
  let counted := { r with coCount := bumpCount r.coCount }
  if r.coCount.toNat < r.cfgMaxout.toNat then
    let e := closedEntry isLast c r n
    ⟨counted, some e.1, e.2⟩
  else ⟨counted, none, n⟩

/-- The exact length of the open range, which reaches 2^64 under condition U3 (R155; log 19). -/
def accLength (r : CoRegs) : Nat := r.accLen.toNat + (if r.accCarry then 2 ^ 64 else 0)

/-- The exact end of the open range, up to 65 bits (R157, R167). -/
def accEnd (r : CoRegs) : Nat := r.accAddr.toNat + accLength r

/-- The open range with exact length `n`: `ACC_LEN` is `trunc_64(n)` (R157), and what it drops is kept (log 19). -/
def CoRegs.withLength (r : CoRegs) (n : Nat) : CoRegs :=
  { r with accLen := trunc64 n, accCarry := decide (2 ^ 64 ≤ n) }

/-- The segment `(a, l)` becomes the open range (R157). -/
def CoRegs.openRange (r : CoRegs) (a : Word64) (l : Word32) : CoRegs :=
  { r with accV := true, accAddr := a, accLen := l.setWidth 64, accCarry := false }

/-- `CO_UNDEF` with one more condition (R27: nothing clears it inside a transaction). -/
def CoRegs.markUndef (r : CoRegs) (cond : Bool) : CoRegs := { r with coUndef := r.coUndef || cond }

/-- The next segment `(a, l)` of context `c`'s list (R157). -/
def acceptSegment (c : CtxNum) (a : Word64) (l : Word32) (r : CoRegs) (n : Nat) : CoResult :=
  let r1 := r.markUndef (decide (2 ^ 64 < a.toNat + l.toNat))
  if r.accV then
    if a.toNat = accEnd r then
      let len := accLength r + l.toNat
      ⟨(r1.markUndef (decide (2 ^ 64 ≤ len))).withLength len, none, n⟩
    else
      let d := closeRange false c (r1.markUndef (decide (a.toNat < accEnd r))) n
      ⟨d.regs.openRange a l, d.write, d.draws⟩
  else ⟨r1.openRange a l, none, n⟩

/-- The end of context `c`'s list: the open range, if any, is closed as the last (R159). The registers are those the
response is computed from; `CO_END` then resets them. -/
def finishList (c : CtxNum) (r : CoRegs) (n : Nat) : CoResult :=
  if r.accV then closeRange true c r n else ⟨r, none, n⟩

/-- The response of a legal `CO_START` (R156). -/
def startResponse : Response := { op := opcodeByte .coStart, busy := true }

/-- The response of a legal `CO_SEG` that leaves the context with registers `r` (R157). -/
def segResponse (r : CoRegs) : Response := { op := opcodeByte .coSeg, busy := true, r0 := r.coCount }

/-- The response of a legal `CO_END` whose closed transaction has registers `r` (R159). -/
def endResponse (r : CoRegs) : Response :=
  { op := opcodeByte .coEnd, ovf := overflow r.coCount r.cfgMaxout, r0 := r.coCount,
    r1 := if r.coCount.toNat ≤ r.cfgMaxout.toNat then r.coCount else r.cfgMaxout }

/-! ### The ports and reset -/

/-- The response buffer has room for one more response (10_state.md R30). -/
def State.hasRoom (s : State) : Bool := decide (s.rspBuf.length < s.params.rspDepth)

/-- The issuer takes the oldest response (30_encoding.md R70): its beat is delivered and its command's write is settled
(20_memory.md R59). -/
def State.deliver (s : State) : State :=
  match s.rspBuf with
  | [] => s
  | f :: rest =>
    { s with
      rspBuf := rest
      settled := applyWrites s.params s.settled (inFlightWrites [f])
      delivered := s.delivered ++ [responseBeat f.rsp] }

/-- Every response in the buffer is taken, in order. -/
def State.deliverAll (s : State) : State :=
  { s with
    rspBuf := []
    settled := s.out
    delivered := s.delivered ++ s.rspBuf.map fun f => responseBeat f.rsp }

/-- The writes of the commands in flight that had taken effect when reset came: a free choice for each command
(70_reset_and_hazards.md R231, 93 I14), drawn from `n` up. -/
def survivingWrites : Nat → List InFlight → List OutWrite
  | _, [] => []
  | n, f :: rest => (if Config.tookEffect n then f.write.toList else []) ++ survivingWrites (n + 1) rest

/-- Reset (R230, R231): every context back to its reset values, the responses in flight lost, no `OutWrite`; OUT keeps
what the delivered commands wrote and those writes in flight that had taken effect. -/
def State.resetBlock (s : State) : State :=
  { s with
    contexts := Vector.replicate 16 CoRegs.reset
    rspBuf := []
    settled := applyWrites s.params s.settled (survivingWrites s.draws s.rspBuf)
    draws := s.draws + s.rspBuf.length }

/-- An event can take place now (R70, R245, log 7): a command when the buffer has room, the acceptance of a response
when there is one, reset always. -/
def State.enabled (s : State) : PortEvent → Bool
  | .command _ => s.hasRoom
  | .takeResponse => !s.rspBuf.isEmpty
  | .reset => true

/-- The first event of a list that can take place, and the list without it: an event that cannot waits at its port
while the events after it go on. -/
def takeFirst (ok : PortEvent → Bool) : List PortEvent → Option (PortEvent × List PortEvent)
  | [] => none
  | e :: rest =>
    if ok e then some (e, rest)
    else (takeFirst ok rest).map fun x => (x.1, e :: x.2)

/-- The event the next step performs, and the events left. -/
def State.nextEvent (s : State) : Option (PortEvent × List PortEvent) := takeFirst s.enabled s.port

end Sys2Proof.Machine
end

