-- ==== Sys2Proof/Machine/Coalescer.lean ====
section
/-!
DEFINITION. The meanings of the three coalescer commands (spec/41_segment_coalescer.md section 2), each with the checks
of causes 3 and 4 that decoding makes against the parameters and the state (spec/30_encoding.md R77).
-/

namespace Sys2Proof.Machine

/-- `CO_START` (R156): legal whether the context is open or not; an open transaction is abandoned. -/
def execCoStart (c : CtxNum) (maxOut : Word32) (off wlen : Word64) (ps : PageShift) (s : State) :
    Host.Outcome State Fault Refusal :=
  .next (withContext .coStart c s
    (s.complete c ⟨startRegs maxOut off wlen ps, none, s.draws⟩ startResponse))

/-- `CO_SEG` (R157). -/
def execCoSeg (c : CtxNum) (a : Word64) (l : Word32) (s : State) : Host.Outcome State Fault Refusal :=
  let x := acceptSegment c a l (s.context c) s.draws
  .next (withOpenContext .coSeg c s (s.complete c x (segResponse x.regs)))

/-- `CO_END` (R159): the response is computed from the closed transaction, then every register of the context returns
to its reset value. -/
def execCoEnd (c : CtxNum) (s : State) : Host.Outcome State Fault Refusal :=
  let x := finishList c (s.context c) s.draws
  .next (withOpenContext .coEnd c s (s.complete c { x with regs := CoRegs.reset } (endResponse x.regs)))

end Sys2Proof.Machine
end

