-- ==== Sys2Proof/Machine/Ring.lean ====
section
/-!
DEFINITION. The meanings of the eight RING operations (spec/40_ring_indexer.md section 2). Each writes nothing but its
response, a function of its operands alone (spec/10_state.md R21).
-/

namespace Sys2Proof.Machine

/-- `RING_PRODUCE_RANGE` (R106). -/
def execRingProduceRange (prod cons cap : Word32) (s : State) : Host.Outcome State Fault Refusal :=
  .next (s.respond (rangeResponse .ringProduceRange (ringValid (exact prod) (exact cons) (exact cap))
    (produceRange (exact prod) (exact cons) (exact cap))) none)

/-- `RING_CONSUME_RANGE` (R107). -/
def execRingConsumeRange (prod cons cap : Word32) (s : State) : Host.Outcome State Fault Refusal :=
  .next (s.respond (rangeResponse .ringConsumeRange (ringValid (exact prod) (exact cons) (exact cap))
    (consumeRange (exact prod) (exact cons) (exact cap))) none)

/-- `RING_ADVANCE` (R108). -/
def execRingAdvance (idx base cap : Word32) (s : State) : Host.Outcome State Fault Refusal :=
  .next (s.respond (ringResponse .ringAdvance (advOk (exact idx) (exact base) (exact cap))
    (advance (exact idx) (exact base) (exact cap))) none)

/-- `RING_OCCUPIED` (R109). -/
def execRingOccupied (prod cons cap : Word32) (s : State) : Host.Outcome State Fault Refusal :=
  .next (s.respond (ringResponse .ringOccupied (ringValid (exact prod) (exact cons) (exact cap))
    (occ (exact prod) (exact cons) (exact cap))) none)

/-- `RING_FREE` (R110). -/
def execRingFree (prod cons cap : Word32) (s : State) : Host.Outcome State Fault Refusal :=
  .next (s.respond (ringResponse .ringFree (ringValid (exact prod) (exact cons) (exact cap))
    (fre (exact prod) (exact cons) (exact cap))) none)

/-- `RING_CTG_OCCUPIED` (R111). -/
def execRingCtgOccupied (prod cons cap : Word32) (s : State) : Host.Outcome State Fault Refusal :=
  .next (s.respond (ringResponse .ringCtgOccupied (ringValid (exact prod) (exact cons) (exact cap))
    (rangeSize (consumeRange (exact prod) (exact cons) (exact cap)))) none)

/-- `RING_CTG_FREE` (R112). -/
def execRingCtgFree (prod cons cap : Word32) (s : State) : Host.Outcome State Fault Refusal :=
  .next (s.respond (ringResponse .ringCtgFree (ringValid (exact prod) (exact cons) (exact cap))
    (rangeSize (produceRange (exact prod) (exact cons) (exact cap)))) none)

/-- `RING_VALID` (R113): `R0` is 1 when the ring is valid, else 0, and `RV` equals it. -/
def execRingValid (prod cons cap : Word32) (s : State) : Host.Outcome State Fault Refusal :=
  let v := ringValid (exact prod) (exact cons) (exact cap)
  .next (s.respond (ringResponse .ringValid v (if v then 1 else 0)) none)

end Sys2Proof.Machine
end

