-- ==== Sys2Proof/Machine/System.lean ====
section
/-!
DEFINITION. The meaning of `NOP` (spec/42_system.md).
-/

namespace Sys2Proof.Machine

/-- `NOP` (R190): a response whose every field but `OP` is 0; no state is written. -/
def execNop (s : State) : Host.Outcome State Fault Refusal := .next (s.respond { op := opcodeByte .nop } none)

end Sys2Proof.Machine
end

