-- ==== Sys2Proof/Machine/Dispatch.lean ====
section
/-!
DEFINITION. The meaning of each command, one arm a constructor (spec/30_encoding.md R76). `exec` is the whole effect of
one accepted command (R71).
-/

namespace Sys2Proof.Machine

def exec (i : Instr) (s : State) : Host.Outcome State Fault Refusal :=
  match i with
  | .nop => Sys2Proof.Machine.execNop s
  | .ringProduceRange prod cons cap => Sys2Proof.Machine.execRingProduceRange prod cons cap s
  | .ringConsumeRange prod cons cap => Sys2Proof.Machine.execRingConsumeRange prod cons cap s
  | .ringAdvance idx base cap => Sys2Proof.Machine.execRingAdvance idx base cap s
  | .ringOccupied prod cons cap => Sys2Proof.Machine.execRingOccupied prod cons cap s
  | .ringFree prod cons cap => Sys2Proof.Machine.execRingFree prod cons cap s
  | .ringCtgOccupied prod cons cap => Sys2Proof.Machine.execRingCtgOccupied prod cons cap s
  | .ringCtgFree prod cons cap => Sys2Proof.Machine.execRingCtgFree prod cons cap s
  | .ringValid prod cons cap => Sys2Proof.Machine.execRingValid prod cons cap s
  | .coStart ctx maxOut windowOffset windowLength pageShift => Sys2Proof.Machine.execCoStart ctx maxOut windowOffset windowLength pageShift s
  | .coSeg ctx address length => Sys2Proof.Machine.execCoSeg ctx address length s
  | .coEnd ctx => Sys2Proof.Machine.execCoEnd ctx s

end Sys2Proof.Machine
end

