-- ==== Sys2Proof/Machine/Fetch.lean ====
section
/-!
DEFINITION. What one port event does, and how a command beat comes to the head of the port
(spec/30_encoding.md R70, R71, R77; spec/70_reset_and_hazards.md R230, R245).
-/

namespace Sys2Proof.Machine

/-- An accepted beat (R77): a legal one is executed; one that decoding finds illegal gets the illegal-command response
(60_exceptions.md R201), whose `OP` is the beat's `OPCODE`, even a reserved one. -/
def acceptBeat (b : Beat) (s : State) : Host.Outcome State Fault Refusal :=
  match decode b with
  | .ok i => exec i s
  | .error cause => .next (raiseIllegal (fieldOpcode b) cause s)

/-- One port event, which `s` no longer lists. -/
def performEvent (e : PortEvent) (s : State) : Host.Outcome State Fault Refusal :=
  match e with
  | .command b => acceptBeat b s
  | .takeResponse => .next s.deliver
  | .reset => .next s.resetBlock

/-- One step: the first port event that can take place; when none can, the block holds its state (60_exceptions.md R215;
70_reset_and_hazards.md R245: a full buffer and nobody who takes a response). -/
def stepPort (s : State) : Host.Outcome State Fault Refusal :=
  match s.nextEvent with
  | none => .next s
  | some (e, rest) => performEvent e { s with port := rest }

/-- `s` with room in its response buffer: as it is where it has room, else with every response taken (log 14). -/
def State.makeRoom (s : State) : State := if s.hasRoom then s else s.deliverAll

/-- `s` with a beat offered at the port before everything else. -/
def State.offerFirst (s : State) (b : Beat) : State := { s with port := .command b :: s.port }

end Sys2Proof.Machine
end

