-- ==== Sys2Proof/Machine/Step.lean ====
section
/-!
DEFINITION. The step of the machine, and a command placed where the next step takes it.
-/

namespace Sys2Proof.Machine

/-- One step of the block: one event at its ports. -/
def step (s : State) : Host.Outcome State Fault Refusal := stepPort s

/-- `s` with the command whose bits are `w` offered as the next one: the first event at the port, with room in the
response buffer for its response (log 1, log 14). -/
def State.withFetchWord (s : State) (nbits w : Nat) : State := s.makeRoom.offerFirst (tableBeat nbits w)

end Sys2Proof.Machine
end

