-- ==== Sys2Proof/Machine/Assembler.lean ====
section
/-!
DEFINITION. The text forms of spec/30_encoding.md section 6: one command a line (R83), the pseudo-instructions (R84), and
beats as hexadecimal numbers (R85). Texts are lists of characters.
-/

namespace Sys2Proof.Machine

/-- Why a line does not assemble. -/
inductive AsmError where
  /-- The mnemonic is none of R83 and R84. -/
  | unknownMnemonic
  /-- The operands are not those the mnemonic's line of R83 or R84 lists, in number or form. -/
  | badOperands
  /-- An operand does not fit its field: "an assembly error. It is never truncated into the beat" (R83). -/
  | doesNotFit
  deriving DecidableEq, Repr

/-! ### Literals -/

/-- The value of a digit in base 16, either case. -/
def digitValue (ch : Char) : Option Nat :=
  if '0' ≤ ch ∧ ch ≤ '9' then some (ch.toNat - '0'.toNat)
  else if 'a' ≤ ch ∧ ch ≤ 'f' then some (ch.toNat - 'a'.toNat + 10)
  else if 'A' ≤ ch ∧ ch ≤ 'F' then some (ch.toNat - 'A'.toNat + 10)
  else none

/-- The number that digits write in a base, most significant first, from the value read so far. -/
def readDigits (base : Nat) : Nat → List Char → Option Nat
  | acc, [] => some acc
  | acc, ch :: rest =>
    match digitValue ch with
    | some d => if d < base then readDigits base (acc * base + d) rest else none
    | none => none

/-- An unsigned integer literal, decimal or hexadecimal with `0x` (R83). -/
def readLiteral : List Char → Option Nat
  | [] => none
  | ['0', 'x'] => none
  | '0' :: 'x' :: rest => readDigits 16 0 rest
  | text => readDigits 10 0 text

/-! ### Lines -/

/-- A blank of a line. -/
def isBlank (ch : Char) : Bool := ch == ' ' || ch == '\t'

/-- A text without the blanks at its ends. -/
def trimBlanks (text : List Char) : List Char :=
  ((text.dropWhile isBlank).reverse.dropWhile isBlank).reverse

/-- The pieces of a text between commas. -/
def splitCommas : List Char → List (List Char)
  | [] => [[]]
  | ch :: rest =>
    if ch == ',' then [] :: splitCommas rest
    else match splitCommas rest with
      | [] => [[ch]]
      | piece :: more => (ch :: piece) :: more

/-- Plain operands: one literal a piece. -/
def readOperandList : List (List Char) → Option (List Nat)
  | [] => some []
  | piece :: rest =>
    match readLiteral (trimBlanks piece), readOperandList rest with
    | some v, some vs => some (v :: vs)
    | _, _ => none

/-- The operands `(a0, l0), (a1, l1), ...` of `co.coalesce` (R84), already split at the commas. -/
def readPairs : List (List Char) → Option (List (Nat × Nat))
  | [] => some []
  | [_] => none
  | x :: y :: rest =>
    match trimBlanks x, (trimBlanks y).reverse with
    | '(' :: x', ')' :: y' =>
      match readLiteral (trimBlanks x'), readLiteral (trimBlanks y'.reverse), readPairs rest with
      | some a, some l, some more => some ((a, l) :: more)
      | _, _, _ => none
    | _, _ => none

/-- An operand placed in a field of `n` bits; an error where it does not fit (R83). -/
def fit (n : Nat) (v : Nat) : Except AsmError (BitVec n) :=
  if v < 2 ^ n then .ok (BitVec.ofNat n v) else .error .doesNotFit

/-- A RING line: three 32-bit operands (R83). -/
def asmRing (mk : Word32 → Word32 → Word32 → Instr) : List Nat → Except AsmError (List Instr)
  | [a, b, k] => do
    let a ← fit 32 a
    let b ← fit 32 b
    let k ← fit 32 k
    return [mk a b k]
  | _ => .error .badOperands

/-- `co.start ctx, max_out, window_offset, window_length, page_shift` (R83). -/
def asmStart : List Nat → Except AsmError (List Instr)
  | [c, m, off, len, ps] => do
    let c ← fit 4 c
    let m ← fit 32 m
    let off ← fit 64 off
    let len ← fit 64 len
    let ps ← fit 6 ps
    return [.coStart c m off len ps]
  | _ => .error .badOperands

/-- `co.seg ctx, address, length` (R83). -/
def asmSeg : List Nat → Except AsmError (List Instr)
  | [c, a, l] => do
    let c ← fit 4 c
    let a ← fit 64 a
    let l ← fit 32 l
    return [.coSeg c a l]
  | _ => .error .badOperands

/-- `co.end ctx` (R83). -/
def asmEnd : List Nat → Except AsmError (List Instr)
  | [c] => do
    let c ← fit 4 c
    return [.coEnd c]
  | _ => .error .badOperands

/-- The pseudo-instruction `co.count ctx, window_offset, window_length, page_shift`: `co.start` with `max_out` 0 (R84). -/
def asmCount : List Nat → Except AsmError (List Instr)
  | [c, off, len, ps] => asmStart [c, 0, off, len, ps]
  | _ => .error .badOperands

/-- One `co.seg` for each segment, in order (R84). -/
def asmSegs (c : Nat) : List (Nat × Nat) → Except AsmError (List Instr)
  | [] => .ok []
  | (a, l) :: rest => do
    let one ← asmSeg [c, a, l]
    let more ← asmSegs c rest
    return one ++ more

/-- The pseudo-instruction `co.coalesce ctx, max_out, window_offset, window_length, page_shift, (a0, l0), ...`: one
whole transaction (R84). -/
def asmCoalesce (head : List Nat) (segs : List (Nat × Nat)) : Except AsmError (List Instr) :=
  match head with
  | [c, m, off, len, ps] => do
    let first ← asmStart [c, m, off, len, ps]
    let middle ← asmSegs c segs
    let last ← asmEnd [c]
    return first ++ middle ++ last
  | _ => .error .badOperands

/-- The commands of a mnemonic with plain operands (R83, R84). -/
def asmPlain (mnemonic : List Char) (ops : List Nat) : Except AsmError (List Instr) :=
  if mnemonic = "nop".toList then (if ops = [] then .ok [.nop] else .error .badOperands)
  else if mnemonic = "ring.produce".toList then asmRing .ringProduceRange ops
  else if mnemonic = "ring.consume".toList then asmRing .ringConsumeRange ops
  else if mnemonic = "ring.advance".toList then asmRing .ringAdvance ops
  else if mnemonic = "ring.occupied".toList then asmRing .ringOccupied ops
  else if mnemonic = "ring.free".toList then asmRing .ringFree ops
  else if mnemonic = "ring.ctgocc".toList then asmRing .ringCtgOccupied ops
  else if mnemonic = "ring.ctgfree".toList then asmRing .ringCtgFree ops
  else if mnemonic = "ring.valid".toList then asmRing .ringValid ops
  else if mnemonic = "co.start".toList then asmStart ops
  else if mnemonic = "co.seg".toList then asmSeg ops
  else if mnemonic = "co.end".toList then asmEnd ops
  else if mnemonic = "co.count".toList then asmCount ops
  else .error .unknownMnemonic

/-- The pieces of a line's operand text; none where there is no text. -/
def operandPieces (text : List Char) : List (List Char) :=
  if trimBlanks text = [] then [] else splitCommas text

/-- The commands of one line of text: what stands before `;`, a mnemonic, then operands separated by commas (R83). A
line with nothing before `;` assembles to no command (log 15). -/
def assembleLine (line : List Char) : Except AsmError (List Instr) :=
  let text := trimBlanks (line.takeWhile fun ch => ch != ';')
  if text = [] then .ok []
  else
    let mnemonic := text.takeWhile fun ch => !isBlank ch
    let pieces := operandPieces (text.dropWhile fun ch => !isBlank ch)
    if mnemonic = "co.coalesce".toList then
      match readOperandList (pieces.take 5), readPairs (pieces.drop 5) with
      | some head, some segs => asmCoalesce head segs
      | _, _ => .error .badOperands
    else
      match readOperandList pieces with
      | some ops => asmPlain mnemonic ops
      | none => .error .badOperands

/-- The beats of one line of text (R83). -/
def assembleBeats (line : List Char) : Except AsmError (List Beat) :=
  match assembleLine line with
  | .ok is => .ok (is.map encode)
  | .error e => .error e

/-! ### Beats as hexadecimal text (R85) -/

/-- A hexadecimal digit. -/
def hexDigit (d : Nat) : Char := if d < 10 then Char.ofNat ('0'.toNat + d) else Char.ofNat ('a'.toNat + (d - 10))

/-- `0x` and `n` hexadecimal digits, most significant first. -/
def hexText (n v : Nat) : List Char :=
  '0' :: 'x' :: ((List.range n).map fun j => hexDigit (v / 16 ^ (n - 1 - j) % 16))

/-- A command beat as text: 64 digits (R85). -/
def beatText (b : Beat) : List Char := hexText 64 b.toNat

/-- A response beat as text: 32 digits (R85). -/
def rspText (b : RspBeat) : List Char := hexText 32 b.toNat

end Sys2Proof.Machine
end

