-- ==== Sys2Proof/Machine/Transaction.lean ====
section
/-!
DEFINITION. The coalescer's operation at the level of a whole transaction: the literal algorithm of
spec/41_segment_coalescer.md R150 to R155, on exact integers, and the commands that carry it on the port (R161). No
step calls these: the obligations compare the commands with them.
-/

namespace Sys2Proof.Machine

/-- A segment `(address, length)` (R150). -/
structure Segment where
  addr : Word64
  len : Word32
  deriving DecidableEq, Repr

/-- A coalesced range, exact (R151). -/
structure MergedRange where
  addr : Nat
  len : Nat
  deriving DecidableEq, Repr

/-- An output entry as R153 computes it, exact: a length may come out negative (R155 U4, U5). -/
structure ExactEntry where
  addr : Int
  len : Int
  deriving DecidableEq, Repr

/-- One turn of the merge walk (R151): extend the last range when the segment is adjacent to it, else append. -/
def walkStep (ranges : List MergedRange) (g : Segment) : List MergedRange :=
  match ranges.getLast? with
  | none => ranges ++ [⟨g.addr.toNat, g.len.toNat⟩]
  | some last =>
    if g.addr.toNat = last.addr + last.len then ranges.dropLast ++ [⟨last.addr, last.len + g.len.toNat⟩]
    else ranges ++ [⟨g.addr.toNat, g.len.toNat⟩]

/-- `Walk(segs)` (R151). -/
def walk (segs : List Segment) : List MergedRange := segs.foldl walkStep []

/-- The first trim on an entry (R153). -/
def trimFirst (off : Word64) (e : ExactEntry) : ExactEntry := ⟨e.addr + exact off, e.len - exact off⟩

/-- The last trim on an entry (R153). -/
def trimLast (off wlen : Word64) (ps : PageShift) (e : ExactEntry) : ExactEntry := ⟨e.addr, e.len - (tail off wlen ps : Int)⟩

/-- The entries of OUT that `COALESCE` leaves written, `0 .. min(total, max_out) - 1` (R153): the untrimmed ranges of
step 2, then the trims of step 3, the last one only if all ranges fit. -/
def coalesceEntries (segs : List Segment) (off wlen : Word64) (maxOut : Nat) (ps : PageShift) : List ExactEntry :=
  let ranges := walk segs
  let written := (ranges.take maxOut).map fun r => ExactEntry.mk r.addr r.len
  let first := written.modifyHead (trimFirst off)
  if ranges.length ≤ maxOut then first.modifyLast (trimLast off wlen ps) else first

/-- `total_count` of `COALESCE` (R153). -/
def coalesceTotal (segs : List Segment) : Nat := (walk segs).length

/-- Condition U1 (R155): the window is empty. -/
def undefU1 (wlen : Word64) : Bool := wlen == 0#64

/-- Condition U2 (R155): the list is not ascending and non-overlapping. -/
def undefU2 (segs : List Segment) : Bool :=
  (segs.zip segs.tail).any fun x => decide (x.2.addr.toNat < x.1.addr.toNat + x.1.len.toNat)

/-- Condition U3 (R155): a segment runs past 2^64, or a range's length reaches 2^64. -/
def undefU3 (segs : List Segment) : Bool :=
  segs.any (fun g => decide (2 ^ 64 < g.addr.toNat + g.len.toNat)) || (walk segs).any fun r => decide (2 ^ 64 ≤ r.len)

/-- Conditions U4 and U5 (R155): a trim leaves a negative length or an address of 2^64 or more. -/
def undefTrim (segs : List Segment) (off wlen : Word64) (maxOut : Nat) (ps : PageShift) : Bool :=
  (coalesceEntries segs off wlen maxOut ps).any fun e => decide (e.len < 0 ∨ 2 ^ 64 ≤ e.addr)

/-- Some condition U1 to U5 holds (R155). -/
def undefinedInput (segs : List Segment) (off wlen : Word64) (maxOut : Nat) (ps : PageShift) : Bool :=
  undefU1 wlen || undefU2 segs || undefU3 segs || undefTrim segs off wlen maxOut ps

/-- The commands of one transaction (R161; the pseudo-instruction `co.coalesce` of 30_encoding.md R84). -/
def transaction (c : CtxNum) (maxOut : Word32) (off wlen : Word64) (ps : PageShift) (segs : List Segment) : List Instr :=
  .coStart c maxOut off wlen ps :: (segs.map fun g => .coSeg c g.addr g.len) ++ [.coEnd c]

/-- Execute commands one after another (30_encoding.md R71), stopping at a fault or a refusal. -/
def execAll : List Instr → State → Host.Outcome State Fault Refusal
  | [], s => .next s
  | i :: rest, s =>
    match exec i s with
    | .next t => execAll rest t
    | .fault r => .fault r
    | .refused r => .refused r

/-- The byte addresses of a range, in order. -/
def rangeBytes (addr len : Nat) : List Nat := List.range' addr len

/-- The byte addresses of a region: its segments in list order (00_scope.md glossary, "window"). -/
def regionBytes (segs : List Segment) : List Nat := segs.flatMap fun g => rangeBytes g.addr.toNat g.len.toNat

end Sys2Proof.Machine
end

