-- ==== Sys2Proof/Safety.lean ====
section
/-!
DEFINITION. What the claims call a good state, in the spec's own terms (spec/10_state.md R26 to R28, R30;
spec/20_memory.md R51; spec/60_exceptions.md R201, R202), and the relations the frame statements are written in.
-/

namespace Sys2Proof.Machine

/-- The registers of one context are ones the coalescer leaves (R26 to R28): while idle every register holds its reset
value; with no open range nothing is accumulated or counted; an empty window is marked undefined and so is a range
that runs past 2^64 or reaches that length (R27, R155); the exact end of the open range has at most 65 bits (R157). -/
def CoRegs.Good (r : CoRegs) : Prop :=
  (r.coBusy = false → r = CoRegs.reset) ∧
  (r.accV = false → r.accAddr = 0#64 ∧ r.accLen = 0#64 ∧ r.accCarry = false ∧ r.coCount = 0#32) ∧
  (r.coBusy = true → r.cfgWlen = 0#64 → r.coUndef = true) ∧
  (r.accV = true → r.coUndef = false → r.accCarry = false ∧ accEnd r ≤ 2 ^ 64) ∧
  (r.accV = true → accEnd r < 2 ^ 65)

/-- A response in the buffer is one the block gives (R74, R201, R202): an illegal one has a cause from 1 to 4 and no
write to OUT, a legal one has cause 0. -/
def InFlight.Good (f : InFlight) : Prop :=
  (f.rsp.ill = true → 1 ≤ f.rsp.ilc.toNat ∧ f.rsp.ilc.toNat ≤ 4 ∧ f.write = none ∧
    f.rsp.rv = false ∧ f.rsp.ovf = false ∧ f.rsp.busy = false ∧
    f.rsp.r0 = 0#32 ∧ f.rsp.r1 = 0#32 ∧ f.rsp.r2 = 0#32) ∧
  (f.rsp.ill = false → f.rsp.ilc = 0#3)

/-- The invariant of the block: memory in canonical form, every context good, the contexts that do not exist untouched
(log 8), the response buffer within `RSP_DEPTH` (R30) and every response in it good. -/
structure State.Inv (s : State) : Prop where
  memory : s.settled.wf = true
  contexts : ∀ c : CtxNum, (s.context c).Good
  absent : ∀ c : CtxNum, ctxExists s.params c = false → s.context c = CoRegs.reset
  depth : s.rspBuf.length ≤ s.params.rspDepth
  responses : ∀ f ∈ s.rspBuf, f.Good

/-- `t` is `s` after one command that changed no register of any context and wrote nothing to OUT: only its response
was added to the response buffer (R21, R190, R201). -/
def OnlyResponds (s t : State) (r : Response) : Prop :=
  t = { s with rspBuf := s.rspBuf ++ [⟨r, none⟩] }

/-- Every context but `c` keeps its registers (R25). -/
def OtherContextsKept (c : CtxNum) (s t : State) : Prop := ∀ d : CtxNum, d ≠ c → t.context d = s.context d

/-- What no command touches: the parameters, what was settled or delivered earlier, and the ports' events. -/
def PortsKept (s t : State) : Prop :=
  t.params = s.params ∧ t.settled = s.settled ∧ t.delivered = s.delivered ∧ t.port = s.port

/-- The bytes of entry `k` of context `c` (20_memory.md R53). -/
def inEntry (p : Config.Params) (c : CtxNum) (k : Word32) (a : Nat) : Prop :=
  entryAddr p c k ≤ a ∧ a < entryAddr p c k + 16

/-- Every byte of OUT reads as before. -/
def OutKept (s t : State) : Prop := ∀ a : Nat, t.outByte a = s.outByte a

/-- Every byte of OUT outside entry `k` of context `c` reads as before. -/
def OutKeptOutside (c : CtxNum) (k : Word32) (s t : State) : Prop :=
  ∀ a : Nat, ¬ inEntry s.params c k a → t.outByte a = s.outByte a

/-- The beats of all responses, delivered and still in the buffer, in order (30_encoding.md R71). -/
def State.responses (s : State) : List RspBeat := s.delivered ++ s.rspBuf.map fun f => responseBeat f.rsp

/-- The response of a command run on its own: the last one in the response buffer after it. -/
def answer (i : Instr) (s : State) : Option Response :=
  match exec i s with
  | .next t => t.rspBuf.getLast?.map fun f => f.rsp
  | .fault _ => none
  | .refused _ => none

/-- The source's `prod'`, of counters as numbers (40_ring_indexer.md R100). -/
def unwrapped (p c cap : Nat) : Nat := if p < c then p + 2 * cap else p

/-- A valid ring (R100 `Valid`, on numbers): both counters below `2*cap` and the occupancy at most `cap`. -/
def ValidRing (p c cap : Nat) : Prop := p < 2 * cap ∧ c < 2 * cap ∧ unwrapped p c cap ≤ cap + c

/-- The fields of a RING response that no RING rule writes are 0 (30_encoding.md R75). -/
def RingPlain (r : Response) (op : OpByte) : Prop :=
  r.op = op ∧ r.ill = false ∧ r.ilc = 0#3 ∧ r.ovf = false ∧ r.busy = false

/-- A command a context can run: its context exists and has an open transaction (R77). -/
def OpenContext (s : State) (c : CtxNum) : Prop := ctxExists s.params c = true ∧ (s.context c).coBusy = true

/-- `CO_COUNT` after one more closed range (41_segment_coalescer.md R158), as a number. -/
def nextCount (k : Word32) : Nat := min (k.toNat + 1) (2 ^ 32 - 1)

/-- The first trim on entry `k` of a context (R158): `CFG_WOFF` on entry 0, nothing on the others. -/
def firstTrim (r : CoRegs) : Nat := if r.coCount.toNat = 0 then r.cfgWoff.toNat else 0

/-- What one command adds to the response buffer, without the values of its write: its response, and the entry it
writes, if any. -/
def InFlight.shape (f : InFlight) : Response × Option (CtxNum × Word32) :=
  (f.rsp, f.write.map fun w => (w.ctx, w.index))

/-- The context a command acts on, for the coalescer commands (30_encoding.md R72). -/
def instrContext : Instr → Option CtxNum
  | .nop => none
  | .ringProduceRange _ _ _ => none
  | .ringConsumeRange _ _ _ => none
  | .ringAdvance _ _ _ => none
  | .ringOccupied _ _ _ => none
  | .ringFree _ _ _ => none
  | .ringCtgOccupied _ _ _ => none
  | .ringCtgFree _ _ _ => none
  | .ringValid _ _ _ => none
  | .coStart c _ _ _ _ => some c
  | .coSeg c _ _ => some c
  | .coEnd c => some c

/-- The commands of a list that act on context `c` (30_encoding.md R72). -/
def commandsOf (c : CtxNum) (is : List Instr) : List Instr :=
  is.filter fun i => decide (instrContext i = some c)

end Sys2Proof.Machine
end

