-- ==== Sys2Proof/Certificates/Slice0/Obligations.lean ====
section
/-!
DEFINITION. The statements for the provers, each from the numbered rules of spec/ its docstring names. Every statement
holds for every value of the parameters (`State.params`), of the free values and of the draw counter.
-/

open Sys2Proof Sys2Proof.Machine

/-! ### Encoding -/

/-- R78: the reserved opcodes are exactly `0x09` to `0x0F` and `0x13` to `0xFF`. -/
def Obligations.ReservedOpcodesAreTheGaps : Prop :=
  ∀ op : OpByte, opcodeOf op = none ↔ (0x09 ≤ op.toNat ∧ op.toNat ≤ 0x0F) ∨ 0x13 ≤ op.toNat

/-- A few beats written out from the formats of R73 decode to their commands. -/
def Obligations.SpecWordsDecode : Prop :=
  decode 0x0000000000000000000000000000000000000004000000060000000100000001#256 = .ok (.ringProduceRange 1#32 6#32 4#32) ∧
  decode 0x0000000000001f40000000000000006400000000000000000000000200000c10#256 =
    .ok (.coStart 0#4 2#32 100#64 8000#64 12#6) ∧
  decode 0x000000000000000000000000b000000000000000000000000000100000004011#256 = .ok (.coSeg 1#4 0xB0000000#64 4096#32) ∧
  decode 0x0000000000000000000000000000000000000000000000000000000000004012#256 = .ok (.coEnd 1#4) ∧
  decode 0x0000000000000000000000000000000000000000000000000000000000000000#256 = .ok .nop

/-- R76 and opcode_table.json: a beat decodes to an operation exactly when it meets that row's match and mask. -/
def Obligations.DecodeFollowsOpcodeTable : Prop :=
  ∀ row ∈ ([
      (.nop, 0x00#256, 0xffffffffffffffffffffffffffffffffffffffffffffffffffffffffffffffff#256),
      (.ringProduceRange, 0x01#256, 0xffffffffffffffffffffffffffffffff000000000000000000000000ffffffff#256),
      (.ringConsumeRange, 0x02#256, 0xffffffffffffffffffffffffffffffff000000000000000000000000ffffffff#256),
      (.ringAdvance, 0x03#256, 0xffffffffffffffffffffffffffffffff000000000000000000000000ffffffff#256),
      (.ringOccupied, 0x04#256, 0xffffffffffffffffffffffffffffffff000000000000000000000000ffffffff#256),
      (.ringFree, 0x05#256, 0xffffffffffffffffffffffffffffffff000000000000000000000000ffffffff#256),
      (.ringCtgOccupied, 0x06#256, 0xffffffffffffffffffffffffffffffff000000000000000000000000ffffffff#256),
      (.ringCtgFree, 0x07#256, 0xffffffffffffffffffffffffffffffff000000000000000000000000ffffffff#256),
      (.ringValid, 0x08#256, 0xffffffffffffffffffffffffffffffff000000000000000000000000ffffffff#256),
      (.coStart, 0x10#256, 0x00000000000000000000000000000000ffffffffffffffff00000000fffc00ff#256),
      (.coSeg, 0x11#256, 0xffffffffffffffff0000000000000000ffffffffffffffff00000000fffc3fff#256),
      (.coEnd, 0x12#256, 0xfffffffffffffffffffffffffffffffffffffffffffffffffffffffffffc3fff#256)
    ] : List (Opcode × Beat × Beat)),
    ∀ b : Beat, (∃ i, decode b = .ok i ∧ instrOpcode i = row.1) ↔ b &&& row.2.2 = row.2.1

/-- Every command decodes back from its beat, with every operand at every value of its field (R73, R76, R82). -/
def Obligations.DecodeInvertsEncode : Prop := ∀ i : Instr, decode (encode i) = .ok i

/-- A legal beat is the only beat of its command: no bit of a legal beat is ignored (R73, R79). -/
def Obligations.EncodeInvertsDecode : Prop := ∀ (b : Beat) (i : Instr), decode b = .ok i → encode i = b

/-- R74: every field of a response beat stands at its bit positions, and bits 31..15 are 0. -/
def Obligations.ResponseBeatLayout : Prop :=
  ∀ r : Response,
    (responseBeat r).extractLsb' 0 8 = r.op ∧
    (responseBeat r).extractLsb' 8 1 = BitVec.ofBool r.ill ∧
    (responseBeat r).extractLsb' 9 3 = r.ilc ∧
    (responseBeat r).extractLsb' 12 1 = BitVec.ofBool r.rv ∧
    (responseBeat r).extractLsb' 13 1 = BitVec.ofBool r.ovf ∧
    (responseBeat r).extractLsb' 14 1 = BitVec.ofBool r.busy ∧
    (responseBeat r).extractLsb' 15 17 = 0#17 ∧
    (responseBeat r).extractLsb' 32 32 = r.r0 ∧
    (responseBeat r).extractLsb' 64 32 = r.r1 ∧
    (responseBeat r).extractLsb' 96 32 = r.r2

/-- R54: a beat travels as its bytes in increasing order, byte `j` holding bits `8j+7 .. 8j`, and is rebuilt from them. -/
def Obligations.BeatsTravelLittleEndian : Prop :=
  (∀ b : Beat, (beatBytes b).length = 32 ∧ beatOfBytes (beatBytes b) = b ∧
    ∀ j < 32, (beatBytes b)[j]? = some (b.extractLsb' (8 * j) 8)) ∧
  (∀ b : RspBeat, (rspBytes b).length = 16 ∧ ∀ j < 16, (rspBytes b)[j]? = some (b.extractLsb' (8 * j) 8))

/-- R83: operands that fit their fields assemble to the command with those operands; an operand that does not fit is an
error, never truncated. -/
def Obligations.AssemblerNeverTruncates : Prop :=
  (∀ (mk : Word32 → Word32 → Word32 → Instr) (a b k : Nat),
    asmRing mk [a, b, k] =
      if a < 2 ^ 32 ∧ b < 2 ^ 32 ∧ k < 2 ^ 32 then
        .ok [mk (BitVec.ofNat 32 a) (BitVec.ofNat 32 b) (BitVec.ofNat 32 k)]
      else .error .doesNotFit) ∧
  (∀ c m off len ps : Nat,
    asmStart [c, m, off, len, ps] =
      if c < 2 ^ 4 ∧ m < 2 ^ 32 ∧ off < 2 ^ 64 ∧ len < 2 ^ 64 ∧ ps < 2 ^ 6 then
        .ok [.coStart (BitVec.ofNat 4 c) (BitVec.ofNat 32 m) (BitVec.ofNat 64 off) (BitVec.ofNat 64 len)
          (BitVec.ofNat 6 ps)]
      else .error .doesNotFit) ∧
  (∀ c a l : Nat,
    asmSeg [c, a, l] =
      if c < 2 ^ 4 ∧ a < 2 ^ 64 ∧ l < 2 ^ 32 then
        .ok [.coSeg (BitVec.ofNat 4 c) (BitVec.ofNat 64 a) (BitVec.ofNat 32 l)]
      else .error .doesNotFit) ∧
  (∀ c : Nat, asmEnd [c] = if c < 2 ^ 4 then .ok [.coEnd (BitVec.ofNat 4 c)] else .error .doesNotFit)

/-- R84: the two pseudo-instructions expand to the commands the rule lists. -/
def Obligations.PseudoInstructionsExpand : Prop :=
  (∀ (c : CtxNum) (off wlen : Word64) (ps : PageShift),
    asmCount [c.toNat, off.toNat, wlen.toNat, ps.toNat] = .ok [.coStart c 0#32 off wlen ps]) ∧
  (∀ (c : CtxNum) (m : Word32) (off wlen : Word64) (ps : PageShift) (segs : List Segment),
    asmCoalesce [c.toNat, m.toNat, off.toNat, wlen.toNat, ps.toNat]
        (segs.map fun g => (g.addr.toNat, g.len.toNat)) =
      .ok ([.coStart c m off wlen ps] ++ (segs.map fun g => .coSeg c g.addr g.len) ++ [.coEnd c]))

/-! ### System and RING commands: result, completion and frame -/

/-- R190: `NOP` answers a response whose every field is 0 (its `OP` is `0x00`) and changes nothing else, in every state;
its one beat is all zeros, and any other beat with its `OPCODE` is illegal with cause 2. -/
def Obligations.NopAnswersZero : Prop :=
  (∀ s : State, ∃ t r, exec .nop s = .next t ∧ OnlyResponds s t r ∧ responseBeat r = 0#128 ∧ OutKept s t) ∧
  decode 0#256 = .ok .nop ∧
  ∀ b : Beat, fieldOpcode b = 0x00#8 → b ≠ 0#256 → decode b = .error .nonzeroMbz

/-- R106 with the table of R102: the producer's range, row by row. -/
def Obligations.RingProduceRangeResult : Prop :=
  ∀ (p c k : Word32) (s : State), ∃ t r, exec (.ringProduceRange p c k) s = .next t ∧ OnlyResponds s t r ∧ OutKept s t ∧
    RingPlain r 0x01#8 ∧ (r.rv = true ↔ ValidRing p.toNat c.toNat k.toNat) ∧
    (p.toNat < k.toNat → c.toNat < k.toNat → r.r0 = 0#32 ∧ r.r1 = p ∧ r.r2 = k) ∧
    (p.toNat < k.toNat → k.toNat ≤ c.toNat → r.r0 = 0#32 ∧ r.r1 = p ∧ r.r2 = c - k) ∧
    (k.toNat ≤ p.toNat → c.toNat < k.toNat → r.r0 = k ∧ r.r1 = p - k ∧ r.r2 = c) ∧
    (k.toNat ≤ p.toNat → k.toNat ≤ c.toNat → r.r0 = k ∧ r.r1 = p - k ∧ r.r2 = k)

/-- R107 with the table of R103: the consumer's range, row by row. -/
def Obligations.RingConsumeRangeResult : Prop :=
  ∀ (p c k : Word32) (s : State), ∃ t r, exec (.ringConsumeRange p c k) s = .next t ∧ OnlyResponds s t r ∧ OutKept s t ∧
    RingPlain r 0x02#8 ∧ (r.rv = true ↔ ValidRing p.toNat c.toNat k.toNat) ∧
    (c.toNat < k.toNat → p.toNat < k.toNat → r.r0 = 0#32 ∧ r.r1 = c ∧ r.r2 = p) ∧
    (c.toNat < k.toNat → k.toNat ≤ p.toNat → r.r0 = 0#32 ∧ r.r1 = c ∧ r.r2 = k) ∧
    (k.toNat ≤ c.toNat → p.toNat < k.toNat → r.r0 = k ∧ r.r1 = c - k ∧ r.r2 = k) ∧
    (k.toNat ≤ c.toNat → k.toNat ≤ p.toNat → r.r0 = k ∧ r.r1 = c - k ∧ r.r2 = p - k)

/-- R108 with R104 and `AdvOK` of R105: `cap - base` or `base + idx`, reduced to 32 bits. -/
def Obligations.RingAdvanceResult : Prop :=
  ∀ (i b k : Word32) (s : State), ∃ t r, exec (.ringAdvance i b k) s = .next t ∧ OnlyResponds s t r ∧ OutKept s t ∧
    RingPlain r 0x03#8 ∧ r.r1 = 0#32 ∧ r.r2 = 0#32 ∧
    r.r0 = (if i = k then k - b else b + i) ∧
    (r.rv = true ↔ 1 ≤ k.toNat ∧ (b.toNat = 0 ∨ b.toNat = k.toNat) ∧ i.toNat ≤ k.toNat ∧
      (if i = k then k.toNat - b.toNat else b.toNat + i.toNat) < 2 ^ 32)

/-- R109: `prod' - cons`, reduced to 32 bits. -/
def Obligations.RingOccupiedResult : Prop :=
  ∀ (p c k : Word32) (s : State), ∃ t r, exec (.ringOccupied p c k) s = .next t ∧ OnlyResponds s t r ∧ OutKept s t ∧
    RingPlain r 0x04#8 ∧ r.r1 = 0#32 ∧ r.r2 = 0#32 ∧ (r.rv = true ↔ ValidRing p.toNat c.toNat k.toNat) ∧
    r.r0 = BitVec.ofInt 32 ((unwrapped p.toNat c.toNat k.toNat : Int) - c.toNat)

/-- R110: `cap + cons - prod'`, reduced to 32 bits. -/
def Obligations.RingFreeResult : Prop :=
  ∀ (p c k : Word32) (s : State), ∃ t r, exec (.ringFree p c k) s = .next t ∧ OnlyResponds s t r ∧ OutKept s t ∧
    RingPlain r 0x05#8 ∧ r.r1 = 0#32 ∧ r.r2 = 0#32 ∧ (r.rv = true ↔ ValidRing p.toNat c.toNat k.toNat) ∧
    r.r0 = BitVec.ofInt 32 ((k.toNat : Int) + c.toNat - unwrapped p.toNat c.toNat k.toNat)

/-- R111: the size of the range `RING_CONSUME_RANGE` returns on the same operands, reduced to 32 bits. -/
def Obligations.RingCtgOccupiedResult : Prop :=
  ∀ (p c k : Word32) (s : State), ∃ t r q, exec (.ringCtgOccupied p c k) s = .next t ∧ OnlyResponds s t r ∧ OutKept s t ∧
    RingPlain r 0x06#8 ∧ r.r1 = 0#32 ∧ r.r2 = 0#32 ∧ (r.rv = true ↔ ValidRing p.toNat c.toNat k.toNat) ∧
    answer (.ringConsumeRange p c k) s = some q ∧ r.r0 = q.r2 - q.r1

/-- R112: the size of the range `RING_PRODUCE_RANGE` returns on the same operands, reduced to 32 bits. -/
def Obligations.RingCtgFreeResult : Prop :=
  ∀ (p c k : Word32) (s : State), ∃ t r q, exec (.ringCtgFree p c k) s = .next t ∧ OnlyResponds s t r ∧ OutKept s t ∧
    RingPlain r 0x07#8 ∧ r.r1 = 0#32 ∧ r.r2 = 0#32 ∧ (r.rv = true ↔ ValidRing p.toNat c.toNat k.toNat) ∧
    answer (.ringProduceRange p c k) s = some q ∧ r.r0 = q.r2 - q.r1

/-- R113: 1 for a valid ring, else 0, and `RV` equal to it. -/
def Obligations.RingValidResult : Prop :=
  ∀ (p c k : Word32) (s : State), ∃ t r, exec (.ringValid p c k) s = .next t ∧ OnlyResponds s t r ∧ OutKept s t ∧
    RingPlain r 0x08#8 ∧ r.r1 = 0#32 ∧ r.r2 = 0#32 ∧
    (ValidRing p.toNat c.toNat k.toNat → r.r0 = 1#32 ∧ r.rv = true) ∧
    (¬ ValidRing p.toNat c.toNat k.toNat → r.r0 = 0#32 ∧ r.rv = false)

/-- R21: a command that names no context (the RING commands and `NOP`) is answered from its beat alone, whatever the
states. -/
def Obligations.RingAnswersFromBeatAlone : Prop :=
  ∀ (i : Instr) (s s' : State), instrContext i = none → ∃ r, answer i s = some r ∧ answer i s' = some r

/-! ### RING arithmetic laws -/

/-- R117: the occupied and the free count add up to `cap`, valid ring or not. -/
def Obligations.OccupiedPlusFreeIsCap : Prop :=
  (∀ p c k : Int, occ p c k + fre p c k = k) ∧
  (∀ (p c k : Word32) (s : State), ∃ a b, answer (.ringOccupied p c k) s = some a ∧ answer (.ringFree p c k) s = some b ∧
    a.r0 + b.r0 = k)

/-- R115: on a valid ring no result is reduced, and each lies in `[0, cap]`; where `AdvOK` holds, `RING_ADVANCE` gives a
counter below `2*cap` and 2^32. -/
def Obligations.ValidRingResultsNotTruncated : Prop :=
  (∀ (p c k : Word32), ValidRing p.toNat c.toNat k.toNat →
    let P := exact p; let C := exact c; let K := exact k
    ∀ v ∈ [(produceRange P C K).base, (produceRange P C K).start, (produceRange P C K).stop,
        (consumeRange P C K).base, (consumeRange P C K).start, (consumeRange P C K).stop,
        occ P C K, fre P C K, rangeSize (consumeRange P C K), rangeSize (produceRange P C K)],
      0 ≤ v ∧ v ≤ K ∧ exact (trunc32 v) = v) ∧
  (∀ (i b k : Word32), advOk (exact i) (exact b) (exact k) = true →
    let v := advance (exact i) (exact b) (exact k)
    0 ≤ v ∧ v < 2 * exact k ∧ v < 2 ^ 32 ∧ exact (trunc32 v) = v)

/-- R101: on a valid ring, a produce or consume range has base 0 or `cap`, stands inside the buffer, starts at its own
counter, and `base + i` is the counter whose physical slot is `i`. -/
def Obligations.RangesNameCounters : Prop :=
  ∀ p c k : Nat, ValidRing p c k →
    ∀ x ∈ [(produceRange p c k, (p : Int)), (consumeRange p c k, (c : Int))],
      (x.1.base = 0 ∨ x.1.base = k) ∧ 0 ≤ x.1.start ∧ x.1.start ≤ x.1.stop ∧ x.1.stop ≤ k ∧ x.1.start < k ∧
      x.1.base + x.1.start = x.2 ∧
      ∀ i : Int, x.1.start ≤ i → i < x.1.stop → x.1.base + i < 2 * k ∧ (x.1.base + i) % k = i

/-- R118: on a valid ring each contiguous run is the longest one that does not pass the physical end, and it is the
total exactly under the rule's conditions, which is when the total does not pass the physical end. -/
def Obligations.ContiguousRunsAreMaximal : Prop :=
  ∀ p c k : Nat, ValidRing p c k →
    let co := rangeSize (consumeRange p c k)
    let cf := rangeSize (produceRange p c k)
    0 ≤ co ∧ co ≤ occ p c k ∧ 0 ≤ cf ∧ cf ≤ fre p c k ∧
    cf = min (fre p c k) ((k : Int) - (p : Int) % k) ∧
    co = min (occ p c k) ((k : Int) - (c : Int) % k) ∧
    (co = occ p c k ↔ (p < k ↔ c < k) ∨ p % k = 0) ∧
    (cf = fre p c k ↔ ¬ (p < k ↔ c < k) ∨ c % k = 0) ∧
    (co = occ p c k ↔ (c : Int) % k + occ p c k ≤ k) ∧
    (cf = fre p c k ↔ (p : Int) % k + fre p c k ≤ k)

/-- R119: advancing an index of a range is addition modulo `2*cap`. -/
def Obligations.AdvanceIsModularAddition : Prop :=
  ∀ i b k : Nat, 1 ≤ k → (b = 0 ∨ b = k) → i ≤ k → advance i b k = ((b : Int) + i) % (2 * k)

/-- R120, both halves, on exact integers: committing `n` slots of a range moves its counter on by `n` modulo `2*cap`,
the occupancy by `n`, and keeps the ring valid. -/
def Obligations.RingRoundTrip : Prop :=
  ∀ (p c k : Nat) (n : Int), ValidRing p c k → 0 ≤ n →
    (n ≤ rangeSize (produceRange p c k) →
      let r := produceRange p c k
      let p2 := advance (r.start + n) r.base k
      p2 = ((p : Int) + n) % (2 * k) ∧ occ p2 c k = occ p c k + n ∧ ringValid p2 c k = true) ∧
    (n ≤ rangeSize (consumeRange p c k) →
      let r := consumeRange p c k
      let c2 := advance (r.start + n) r.base k
      c2 = ((c : Int) + n) % (2 * k) ∧ occ p c2 k = occ p c k - n ∧ ringValid p c2 k = true)

/-- The commit protocol of R237 run on the block (`cap` at most `CAP_MAX`): `RING_PRODUCE_RANGE`, then `RING_ADVANCE` by
`n` slots of the range, gives a counter with which the ring is valid and holds `n` slots more. -/
def Obligations.ProduceCommitKeepsRing : Prop :=
  ∀ (p c k n : Word32) (s : State) (r : Response), ValidRing p.toNat c.toNat k.toNat → k.toNat ≤ 2 ^ 31 →
    answer (.ringProduceRange p c k) s = some r → n.toNat ≤ (r.r2 - r.r1).toNat →
    ∃ q o o', answer (.ringAdvance (r.r1 + n) r.r0 k) s = some q ∧ q.rv = true ∧
      q.r0.toNat = (p.toNat + n.toNat) % (2 * k.toNat) ∧
      answer (.ringOccupied p c k) s = some o ∧ answer (.ringOccupied q.r0 c k) s = some o' ∧ o'.rv = true ∧
      o'.r0.toNat = o.r0.toNat + n.toNat

/-- R121: on a valid ring, equal counters mean empty and counters `cap` apart mean full. -/
def Obligations.EmptyAndFullAreDistinct : Prop :=
  ∀ p c k : Nat, ValidRing p c k →
    (occ p c k = 0 ↔ p = c) ∧
    (((p : Int) - c) % (2 * k) = k ↔ occ p c k = k) ∧ (occ p c k = k ↔ fre p c k = 0)

/-- R63: with an old value of the other side's counter, `RING_PRODUCE_RANGE` gives the same start and an end no greater,
`RING_FREE` a value no greater; `RING_CONSUME_RANGE` gives a range no longer and `RING_OCCUPIED` a count no greater. -/
def Obligations.StaleCountersUnderestimate : Prop :=
  (∀ (p c c' k : Word32) (d : Nat) (s : State), ValidRing p.toNat c.toNat k.toNat →
    (d : Int) ≤ occ p.toNat c.toNat k.toNat → c'.toNat = (c.toNat + d) % (2 * k.toNat) →
    ∃ a a' f f', answer (.ringProduceRange p c k) s = some a ∧ answer (.ringProduceRange p c' k) s = some a' ∧
      a.r0 = a'.r0 ∧ a.r1 = a'.r1 ∧ a.r2.toNat ≤ a'.r2.toNat ∧
      answer (.ringFree p c k) s = some f ∧ answer (.ringFree p c' k) s = some f' ∧ f.r0.toNat ≤ f'.r0.toNat) ∧
  (∀ (p p' c k : Word32) (d : Nat) (s : State), ValidRing p.toNat c.toNat k.toNat →
    (d : Int) ≤ fre p.toNat c.toNat k.toNat → p'.toNat = (p.toNat + d) % (2 * k.toNat) →
    ∃ a a' o o', answer (.ringConsumeRange p c k) s = some a ∧ answer (.ringConsumeRange p' c k) s = some a' ∧
      (a.r2 - a.r1).toNat ≤ (a'.r2 - a'.r1).toNat ∧
      answer (.ringOccupied p c k) s = some o ∧ answer (.ringOccupied p' c k) s = some o' ∧ o.r0.toNat ≤ o'.r0.toNat)

/-! ### Coalescer commands: result, completion and frame -/

/-- R156: `CO_START` latches the window, clears the accumulator and the count, marks an empty window undefined, and
answers `BUSY = 1`; whether the context was open or not. To a context that does not exist it answers cause 3 and does
nothing else. -/
def Obligations.CoStartOpensTransaction : Prop :=
  ∀ (c : CtxNum) (m : Word32) (off wlen : Word64) (ps : PageShift) (s : State),
    (ctxExists s.params c = true →
      ∃ t, exec (.coStart c m off wlen ps) s = .next t ∧
        t.context c =
          { coBusy := true, cfgWoff := off, cfgWlen := wlen, cfgMaxout := m, cfgPshift := ps, accV := false,
            accAddr := 0#64, accLen := 0#64, accCarry := false, coCount := 0#32, coUndef := decide (wlen = 0#64) } ∧
        t.rspBuf = s.rspBuf ++ [⟨{ op := 0x10#8, busy := true }, none⟩] ∧
        OtherContextsKept c s t ∧ PortsKept s t ∧ OutKept s t ∧ t.draws = s.draws) ∧
    (ctxExists s.params c = false →
      ∃ t, exec (.coStart c m off wlen ps) s = .next t ∧ OnlyResponds s t { op := 0x10#8, ill := true, ilc := 3#3 })

/-- R157, the first segment of a transaction: it becomes the open range; nothing is written. -/
def Obligations.CoSegFirstOpensRange : Prop :=
  ∀ (c : CtxNum) (a : Word64) (l : Word32) (s : State), OpenContext s c → (s.context c).accV = false →
    ∃ t, exec (.coSeg c a l) s = .next t ∧
      t.context c =
        { s.context c with
          accV := true, accAddr := a, accLen := l.setWidth 64, accCarry := false,
          coUndef := (s.context c).coUndef || decide (2 ^ 64 < a.toNat + l.toNat) } ∧
      t.rspBuf = s.rspBuf ++ [⟨{ op := 0x11#8, busy := true, r0 := (s.context c).coCount }, none⟩] ∧
      OtherContextsKept c s t ∧ PortsKept s t ∧ OutKept s t ∧ t.draws = s.draws

/-- R157, an adjacent segment (its address is the open range's exact end): the open range grows by its length, of which
`ACC_LEN` keeps 64 bits and the model's own `accCarry` the next one (log 19); nothing is written. -/
def Obligations.CoSegAdjacentMerges : Prop :=
  ∀ (c : CtxNum) (a : Word64) (l : Word32) (s : State), OpenContext s c → (s.context c).accV = true →
    a.toNat = accEnd (s.context c) →
    ∃ t, exec (.coSeg c a l) s = .next t ∧
      t.context c =
        { s.context c with
          accLen := (s.context c).accLen + l.setWidth 64,
          accCarry := decide (2 ^ 64 ≤ (s.context c).accLen.toNat + l.toNat),
          coUndef := (s.context c).coUndef || decide (2 ^ 64 < a.toNat + l.toNat) ||
            decide (2 ^ 64 ≤ (s.context c).accLen.toNat + l.toNat) } ∧
      t.rspBuf = s.rspBuf ++ [⟨{ op := 0x11#8, busy := true, r0 := (s.context c).coCount }, none⟩] ∧
      OtherContextsKept c s t ∧ PortsKept s t ∧ OutKept s t ∧ t.draws = s.draws

/-- R157 with `Close(false)` of R158, a segment that is not adjacent: the open range is counted, the segment becomes the
open range, and entry `CO_COUNT` is written when it is below `max_out`: with the range, trimmed on entry 0, where no
condition of R155 holds; otherwise with values the statement leaves free. Adjacency and the mark of condition U2 are on
the open range's exact end, as R151, R155, R161 and R167 have it: with the model's own `accCarry` set, a segment at
`ACC_ADDR + ACC_LEN`, which R157's pseudocode read literally would merge, is not adjacent (DEDUCED, log 19). -/
def Obligations.CoSegNonAdjacentCloses : Prop :=
  ∀ (c : CtxNum) (a : Word64) (l : Word32) (s : State), OpenContext s c → (s.context c).accV = true →
    a.toNat ≠ accEnd (s.context c) →
    let r := s.context c
    let undef := r.coUndef || decide (2 ^ 64 < a.toNat + l.toNat) || decide (a.toNat < accEnd r)
    ∃ t w, exec (.coSeg c a l) s = .next t ∧
      t.context c =
        { r with
          accAddr := a, accLen := l.setWidth 64, accCarry := false, coCount := BitVec.ofNat 32 (nextCount r.coCount),
          coUndef := undef } ∧
      t.rspBuf = s.rspBuf ++
        [⟨{ op := 0x11#8, busy := true, r0 := BitVec.ofNat 32 (nextCount r.coCount) }, w⟩] ∧
      OtherContextsKept c s t ∧ PortsKept s t ∧
      (r.cfgMaxout.toNat ≤ r.coCount.toNat → w = none ∧ OutKept s t ∧ t.draws = s.draws) ∧
      (r.coCount.toNat < r.cfgMaxout.toNat →
        w.isSome = true ∧ OutKeptOutside c r.coCount s t ∧ (t.outEntry c r.coCount).isSome = true ∧
        (undef = false → firstTrim r ≤ r.accLen.toNat → r.accAddr.toNat + firstTrim r < 2 ^ 64 →
          t.draws = s.draws ∧
          ∃ A L, t.outEntry c r.coCount = some (A, L) ∧ A.toNat = r.accAddr.toNat + firstTrim r ∧
            L.toNat = r.accLen.toNat - firstTrim r))

/-- R159 on an empty list: nothing is written, the context returns to its reset values, and the response carries the
count, the smaller of count and `max_out`, and the overflow. -/
def Obligations.CoEndOfEmptyList : Prop :=
  ∀ (c : CtxNum) (s : State), OpenContext s c → (s.context c).accV = false →
    ∃ t r, exec (.coEnd c) s = .next t ∧ t.context c = CoRegs.reset ∧ t.rspBuf = s.rspBuf ++ [⟨r, none⟩] ∧
      r.op = 0x12#8 ∧ r.ill = false ∧ r.ilc = 0#3 ∧ r.rv = false ∧ r.busy = false ∧ r.r2 = 0#32 ∧
      r.r0 = (s.context c).coCount ∧
      r.r1.toNat = min (s.context c).coCount.toNat (s.context c).cfgMaxout.toNat ∧
      (r.ovf = true ↔ (s.context c).cfgMaxout.toNat < (s.context c).coCount.toNat) ∧
      OtherContextsKept c s t ∧ PortsKept s t ∧ OutKept s t ∧ t.draws = s.draws

/-- R159 with `Close(true)` of R158: the last range is counted and written, when its index is below `max_out`, with both
trims that apply; the response carries the total; the context returns to its reset values. -/
def Obligations.CoEndClosesLastRange : Prop :=
  ∀ (c : CtxNum) (s : State), OpenContext s c → (s.context c).accV = true →
    let r := s.context c
    let trims := firstTrim r + tail r.cfgWoff r.cfgWlen r.cfgPshift
    ∃ t q w, exec (.coEnd c) s = .next t ∧ t.context c = CoRegs.reset ∧ t.rspBuf = s.rspBuf ++ [⟨q, w⟩] ∧
      q.op = 0x12#8 ∧ q.ill = false ∧ q.ilc = 0#3 ∧ q.rv = false ∧ q.busy = false ∧ q.r2 = 0#32 ∧
      q.r0.toNat = nextCount r.coCount ∧ q.r1.toNat = min (nextCount r.coCount) r.cfgMaxout.toNat ∧
      (q.ovf = true ↔ r.cfgMaxout.toNat < nextCount r.coCount) ∧
      OtherContextsKept c s t ∧ PortsKept s t ∧
      (r.cfgMaxout.toNat ≤ r.coCount.toNat → w = none ∧ OutKept s t ∧ t.draws = s.draws) ∧
      (r.coCount.toNat < r.cfgMaxout.toNat →
        w.isSome = true ∧ OutKeptOutside c r.coCount s t ∧ (t.outEntry c r.coCount).isSome = true ∧
        (r.coUndef = false → trims ≤ r.accLen.toNat → r.accAddr.toNat + firstTrim r < 2 ^ 64 →
          t.draws = s.draws ∧
          ∃ A L, t.outEntry c r.coCount = some (A, L) ∧ A.toNat = r.accAddr.toNat + firstTrim r ∧
            L.toNat = r.accLen.toNat - trims))

/-- R152: the tail is 0 when the window ends on a page boundary, else the rest of its last page: the mask of the source
changes nothing. -/
def Obligations.TailIsRestOfLastPage : Prop :=
  ∀ (off wlen : Word64) (ps : PageShift),
    tail off wlen ps =
      if (off.toNat + wlen.toNat) % 2 ^ ps.toNat = 0 then 0
      else 2 ^ ps.toNat - (off.toNat + wlen.toNat) % 2 ^ ps.toNat

/-- R28: after a legal `CO_SEG` the open range ends, exactly, where the segment ends, whatever came before it; where no
undefined input was seen, `ACC_LEN` alone holds its length. -/
def Obligations.OpenRangeEndsAtLastSegment : Prop :=
  ∀ (c : CtxNum) (a : Word64) (l : Word32) (s : State), OpenContext s c →
    ∃ t, exec (.coSeg c a l) s = .next t ∧ (t.context c).accV = true ∧
      accEnd (t.context c) = a.toNat + l.toNat ∧
      ((t.context c).coUndef = false →
        (t.context c).accAddr.toNat + (t.context c).accLen.toNat = a.toNat + l.toNat)

/-- R27: inside a transaction nothing clears `CO_UNDEF`: only `CO_START` or `CO_END` of the context can. -/
def Obligations.UndefinedMarkIsSticky : Prop :=
  ∀ (i : Instr) (c : CtxNum) (s : State), (s.context c).coUndef = true →
    ∃ t, exec i s = .next t ∧
      ((t.context c).coUndef = true ∨ i = .coEnd c ∨ ∃ m off wlen ps, i = .coStart c m off wlen ps)

/-- R51, R52: a command writes at most one entry; it is in the command's own context, has the index `CO_COUNT`, lies
below `max_out`, and the count moves past it or the transaction ends. -/
def Obligations.WritesAreInOrderBelowMaxOut : Prop :=
  ∀ (i : Instr) (s : State), ∃ t f, exec i s = .next t ∧ t.rspBuf = s.rspBuf ++ [f] ∧
    ∀ w, f.write = some w →
      instrContext i = some w.ctx ∧ w.index = (s.context w.ctx).coCount ∧
      w.index.toNat < (s.context w.ctx).cfgMaxout.toNat ∧
      ((t.context w.ctx).coCount.toNat = w.index.toNat + 1 ∨ t.context w.ctx = CoRegs.reset)

/-- R53: an `OutWrite` puts the address and the length, little-endian, into the 16 bytes of its entry, and changes no
other byte. -/
def Obligations.OutEntryIsLittleEndian : Prop :=
  ∀ (p : Config.Params) (m : Memory) (w : OutWrite),
    (∀ j < 8,
      (applyWrite p m w).read (p.outBaseOf w.ctx + 16 * w.index.toNat + j) = some (w.addr.extractLsb' (8 * j) 8) ∧
      (applyWrite p m w).read (p.outBaseOf w.ctx + 16 * w.index.toNat + 8 + j) = some (w.len.extractLsb' (8 * j) 8)) ∧
    (∀ a, a < p.outBaseOf w.ctx + 16 * w.index.toNat ∨ p.outBaseOf w.ctx + 16 * w.index.toNat + 16 ≤ a →
      (applyWrite p m w).read a = m.read a)

/-! ### Illegal commands -/

/-- R77 with R201 to R203: the checks of an accepted beat in their order; the first that fails gives its cause, with one
response and no other effect. -/
def Obligations.IllegalBeatsAnswerLowestCause : Prop :=
  ∀ (s : State) (b : Beat) (rest : List PortEvent), s.nextEvent = some (.command b, rest) →
    let op := fieldOpcode b
    let c := fieldCtx b
    let illegal := fun n : BitVec 3 =>
      ({ s with port := rest, rspBuf := s.rspBuf ++ [⟨{ op := op, ill := true, ilc := n }, none⟩] } : State)
    (opcodeOf op = none → step s = .next (illegal 1#3)) ∧
    (∀ o, opcodeOf op = some o → b &&& mbzMask (formatOf o) ≠ 0#256 → step s = .next (illegal 2#3)) ∧
    (∀ o, opcodeOf op = some o → b &&& mbzMask (formatOf o) = 0#256 →
      (o = .coStart ∨ o = .coSeg ∨ o = .coEnd) → s.params.coContexts ≤ c.toNat → step s = .next (illegal 3#3)) ∧
    (∀ o, opcodeOf op = some o → b &&& mbzMask (formatOf o) = 0#256 →
      (o = .coSeg ∨ o = .coEnd) → c.toNat < s.params.coContexts → (s.context c).coBusy = false →
      step s = .next (illegal 4#3))

/-- R202 causes 3 and 4 on commands: a coalescer command to a context that does not exist, and `CO_SEG` or `CO_END` to
an idle context, answer their cause and do nothing else. -/
def Obligations.MisdirectedCoalescerCommands : Prop :=
  ∀ (c : CtxNum) (s : State),
    (ctxExists s.params c = false →
      (∀ m off wlen ps, ∃ t, exec (.coStart c m off wlen ps) s = .next t ∧
        OnlyResponds s t { op := 0x10#8, ill := true, ilc := 3#3 }) ∧
      (∀ a l, ∃ t, exec (.coSeg c a l) s = .next t ∧ OnlyResponds s t { op := 0x11#8, ill := true, ilc := 3#3 }) ∧
      (∃ t, exec (.coEnd c) s = .next t ∧ OnlyResponds s t { op := 0x12#8, ill := true, ilc := 3#3 })) ∧
    (ctxExists s.params c = true → (s.context c).coBusy = false →
      (∀ a l, ∃ t, exec (.coSeg c a l) s = .next t ∧ OnlyResponds s t { op := 0x11#8, ill := true, ilc := 4#3 }) ∧
      (∃ t, exec (.coEnd c) s = .next t ∧ OnlyResponds s t { op := 0x12#8, ill := true, ilc := 4#3 }))

/-- R200: no operation raises an exception: a command whose context exists, and is open where it must be, answers a legal
response (`ILL = 0`, `ILC = 0`). -/
def Obligations.LegalCommandsAnswerLegally : Prop :=
  ∀ (i : Instr) (s : State), WellFormed s.params i = true →
    (∀ c a l, i = .coSeg c a l → (s.context c).coBusy = true) → (∀ c, i = .coEnd c → (s.context c).coBusy = true) →
    ∃ r, answer i s = some r ∧ r.op = opcodeByte (instrOpcode i) ∧ r.ill = false ∧ r.ilc = 0#3

/-! ### Ports, order and reset -/

/-- R71, R77: when a command is the next port event and its beat is legal, the step is that command's meaning at the
state without the event. The list of port events is the model's (log 1), and so is the second clause, which no rule
states: a command at the head of that list is next whenever the response buffer has room (DESIGN CHOICE, log 7). -/
def Obligations.StepRunsDecodedCommand : Prop :=
  (∀ (s : State) (b : Beat) (rest : List PortEvent) (i : Instr),
    s.nextEvent = some (.command b, rest) → decode b = .ok i → step s = exec i { s with port := rest }) ∧
  (∀ (s : State) (b : Beat) (rest : List PortEvent),
    s.port = .command b :: rest → s.hasRoom = true → s.nextEvent = some (.command b, rest))

/-- R71: every command adds exactly one response, with its own `OP`, at the end of the response buffer, and leaves the
parameters, the delivered responses and the ports alone. -/
def Obligations.OneResponsePerCommand : Prop :=
  ∀ (i : Instr) (s : State), ∃ t f, exec i s = .next t ∧ t.rspBuf = s.rspBuf ++ [f] ∧
    f.rsp.op = opcodeByte (instrOpcode i) ∧ PortsKept s t

/-- R71: responses leave in order: a step that is not a reset keeps the sequence of all responses, or adds one at its
end. -/
def Obligations.ResponsesLeaveInOrder : Prop :=
  ∀ s t : State, step s = .next t → (∀ rest, s.nextEvent ≠ some (.reset, rest)) →
    t.responses = s.responses ∨ ∃ r, t.responses = s.responses ++ [r]

/-- R70, R59: taking a response delivers the oldest beat and changes no register and no byte of OUT. -/
def Obligations.TakingResponseDeliversOldest : Prop :=
  ∀ (s : State) (f : InFlight) (later : List InFlight) (rest : List PortEvent),
    s.rspBuf = f :: later → s.nextEvent = some (.takeResponse, rest) →
    ∃ t, step s = .next t ∧ t.rspBuf = later ∧ t.delivered = s.delivered ++ [responseBeat f.rsp] ∧
      OutKept s t ∧ t.contexts = s.contexts ∧ t.params = s.params ∧ t.port = rest ∧ t.draws = s.draws

/-- R30, R245: a full response buffer accepts no command, whatever else stands at the port; and with nothing but commands
at the port the block holds its whole state (that the step then answers the same state is the model's choice, log 7). -/
def Obligations.FullBufferAcceptsNothing : Prop :=
  ∀ s : State, s.params.rspDepth ≤ s.rspBuf.length →
    (∀ (b : Beat) (rest : List PortEvent), s.nextEvent ≠ some (.command b, rest)) ∧
    ((∀ e ∈ s.port, ∃ b, e = .command b) → step s = .next s)

/-- R59: once the responses of the commands that wrote an entry are delivered, an outside reader of the entry sees
nothing but what the delivered commands left there; and that is the entry of OUT as it stands, where no write in flight
overlaps its bytes (buffers may overlap, log 12). What a reader may see is the model's `State.observable` (log 9). -/
def Obligations.DeliveredWritesAreVisible : Prop :=
  ∀ (s : State) (atomic : Bool) (c : CtxNum) (k : Word32),
    (∀ w ∈ inFlightWrites s.rspBuf, ¬ (w.ctx = c ∧ w.index = k)) →
    ∀ x ∈ s.observable atomic c k,
      x = readEntry s.params s.settled c k ∧
      ((∀ w ∈ inFlightWrites s.rspBuf,
          entryAddr s.params w.ctx w.index + 16 ≤ entryAddr s.params c k ∨
          entryAddr s.params c k + 16 ≤ entryAddr s.params w.ctx w.index) →
        x = s.outEntry c k)

/-- R230, R231: reset returns every context to its reset values and empties the response buffer; OUT is what the
delivered commands left, then some of the writes in flight, each whole and in its order, so that each byte is the one
the delivered commands left or one that a write in flight put there; with no response in flight OUT is as it was.
The model's choices in it: the writes in flight are kept or lost one by one (log 5), the record of delivered responses
stays (log 10), and so do the offers standing at the port (log 17). -/
def Obligations.ResetKeepsDeliveredOutput : Prop :=
  ∀ (s : State) (rest : List PortEvent), s.nextEvent = some (.reset, rest) →
    ∃ t, step s = .next t ∧ (∀ c, t.context c = CoRegs.reset) ∧ t.rspBuf = [] ∧ t.params = s.params ∧
      t.delivered = s.delivered ∧ t.port = rest ∧
      (∃ ws : List OutWrite, ws.Sublist (inFlightWrites s.rspBuf) ∧ t.out = applyWrites s.params s.settled ws) ∧
      (∀ a, t.outByte a = s.settled.read a ∨
        ∃ w ∈ inFlightWrites s.rspBuf, ∃ j < 16, a = entryAddr s.params w.ctx w.index + j ∧
          t.outByte a = (entryBytes w.addr w.len)[j]?) ∧
      (s.rspBuf = [] → OutKept s t)

/-- R230: the state after reset, for every value of the parameters. -/
def Obligations.ResetStateIsIdle : Prop :=
  ∀ p : Config.Params,
    (∀ c, (State.resetWith p).context c =
      { coBusy := false, cfgWoff := 0#64, cfgWlen := 0#64, cfgMaxout := 0#32, cfgPshift := 0#6, accV := false,
        accAddr := 0#64, accLen := 0#64, accCarry := false, coCount := 0#32, coUndef := false }) ∧
    (State.resetWith p).rspBuf = [] ∧ (State.resetWith p).hasRoom = true

/-! ### Invariants and headline results -/

/-- The invariant holds after reset, whatever the parameters. -/
def Obligations.ResetMeetsInvariant : Prop := ∀ p : Config.Params, (State.resetWith p).Inv

/-- Every step keeps the invariant: memory in canonical form, idle contexts at their reset values (R26), the accumulator
empty before the first segment (R28), undefined inputs marked (R27), absent contexts untouched, the response buffer
within its depth (R30), every buffered response one the block may give (R74, R201, R202). -/
def Obligations.StepKeepsInvariant : Prop := ∀ s t : State, s.Inv → step s = .next t → t.Inv

/-- R25, R160: a command changes the registers of no context but the one it names. -/
def Obligations.OnlyNamedContextChanges : Prop :=
  ∀ (i : Instr) (s : State) (d : CtxNum), instrContext i ≠ some d →
    ∃ t, exec i s = .next t ∧ t.context d = s.context d

/-- R160, R212: interleaved with any other commands, the commands to context `c` leave it as they leave it alone, answer
the same responses and write the same entries; and, where running alone draws no free value, the same contents. -/
def Obligations.ContextsDoNotInterfere : Prop :=
  ∀ (c : CtxNum) (is : List Instr) (s : State),
    ∃ t u, execAll is s = .next t ∧ execAll (commandsOf c is) s = .next u ∧
      t.context c = u.context c ∧
      let mixed := ((is.zip (t.rspBuf.drop s.rspBuf.length)).filter fun x => decide (instrContext x.1 = some c)).map
        fun x => x.2
      let alone := u.rspBuf.drop s.rspBuf.length
      mixed.map InFlight.shape = alone.map InFlight.shape ∧ (u.draws = s.draws → mixed = alone)

/-- R161: a transaction whose input meets no condition of R155 gives exactly `COALESCE` of R153: its total, its entries,
each written once and in order, and no other byte of OUT. -/
def Obligations.TransactionIsCoalesce : Prop :=
  ∀ (s : State) (c : CtxNum) (m : Word32) (off wlen : Word64) (ps : PageShift) (segs : List Segment),
    ctxExists s.params c = true → undefinedInput segs off wlen m.toNat ps = false → coalesceTotal segs < 2 ^ 32 →
    let written := min (coalesceTotal segs) m.toNat
    ∃ t f, execAll (transaction c m off wlen ps segs) s = .next t ∧ t.rspBuf.getLast? = some f ∧
      f.rsp.r0.toNat = coalesceTotal segs ∧ f.rsp.r1.toNat = written ∧
      (f.rsp.ovf = true ↔ m.toNat < coalesceTotal segs) ∧
      t.context c = CoRegs.reset ∧ OtherContextsKept c s t ∧
      (inFlightWrites (t.rspBuf.drop s.rspBuf.length)).map (fun w => w.index.toNat) = List.range written ∧
      (∀ k < written, ∃ e A L, (coalesceEntries segs off wlen m.toNat ps)[k]? = some e ∧
        t.outEntry c (BitVec.ofNat 32 k) = some (A, L) ∧ exact A = e.addr ∧ exact L = e.len) ∧
      (∀ a, (∀ k < written, ¬ inEntry s.params c (BitVec.ofNat 32 k) a) → t.outByte a = s.outByte a)

/-- R155, R161: whatever the input, the total is that of the exact walk, and the indices written and the bytes left
alone are those of `COALESCE`; only the contents of the entries may be free. -/
def Obligations.UndefinedInputKeepsCountAndIndices : Prop :=
  ∀ (s : State) (c : CtxNum) (m : Word32) (off wlen : Word64) (ps : PageShift) (segs : List Segment),
    ctxExists s.params c = true → coalesceTotal segs < 2 ^ 32 →
    let written := min (coalesceTotal segs) m.toNat
    ∃ t f, execAll (transaction c m off wlen ps segs) s = .next t ∧ t.rspBuf.getLast? = some f ∧
      f.rsp.r0.toNat = coalesceTotal segs ∧ f.rsp.r1.toNat = written ∧
      (f.rsp.ovf = true ↔ m.toNat < coalesceTotal segs) ∧
      t.context c = CoRegs.reset ∧ OtherContextsKept c s t ∧
      (inFlightWrites (t.rspBuf.drop s.rspBuf.length)).map (fun w => w.index.toNat) = List.range written ∧
      (∀ a, (∀ k < written, ¬ inEntry s.params c (BitVec.ofNat 32 k) a) → t.outByte a = s.outByte a)

/-- R164: a counting pass (`max_out = 0`) changes no byte of OUT and returns the total. -/
def Obligations.CountingPassWritesNothing : Prop :=
  ∀ (s : State) (c : CtxNum) (off wlen : Word64) (ps : PageShift) (segs : List Segment),
    ctxExists s.params c = true → coalesceTotal segs < 2 ^ 32 →
    ∃ t f, execAll (transaction c 0#32 off wlen ps segs) s = .next t ∧ t.rspBuf.getLast? = some f ∧
      f.rsp.r0.toNat = coalesceTotal segs ∧ f.rsp.r1 = 0#32 ∧ (f.rsp.ovf = true ↔ 1 ≤ coalesceTotal segs) ∧ OutKept s t

/-- R163: a transaction with more ranges than `max_out` answers `OVF = 1` with the total and `max_out`; entries
`0 .. max_out - 1` hold the first `max_out` ranges of the walk, entry 0 with the first trim, none with the last trim,
where no condition of R155 holds; every byte outside those entries is as it was. -/
def Obligations.OverflowTrimsOnlyFirst : Prop :=
  ∀ (s : State) (c : CtxNum) (m : Word32) (off wlen : Word64) (ps : PageShift) (segs : List Segment),
    ctxExists s.params c = true → m.toNat < coalesceTotal segs → coalesceTotal segs < 2 ^ 32 →
    ∃ t f, execAll (transaction c m off wlen ps segs) s = .next t ∧ t.rspBuf.getLast? = some f ∧
      f.rsp.ovf = true ∧ f.rsp.r0.toNat = coalesceTotal segs ∧ f.rsp.r1 = m ∧
      (∀ a, (∀ k < m.toNat, ¬ inEntry s.params c (BitVec.ofNat 32 k) a) → t.outByte a = s.outByte a) ∧
      (∀ k < m.toNat, (t.outEntry c (BitVec.ofNat 32 k)).isSome = true) ∧
      (undefinedInput segs off wlen m.toNat ps = false →
        ∀ (k : Nat) (r : MergedRange), k < m.toNat → (walk segs)[k]? = some r →
          ∃ A L, t.outEntry c (BitVec.ofNat 32 k) = some (A, L) ∧
            exact A = (r.addr : Int) + (if k = 0 then exact off else 0) ∧
            exact L = (r.len : Int) - (if k = 0 then exact off else 0))

/-- R151, R168: no two consecutive ranges of the merge walk are adjacent; the walk describes exactly the bytes of the
region, in order, and, where no segment is empty, no shorter list of ranges does. -/
def Obligations.WalkIsMinimal : Prop :=
  ∀ segs : List Segment,
    (∀ (i : Nat) (x y : MergedRange), (walk segs)[i]? = some x → (walk segs)[i + 1]? = some y → y.addr ≠ x.addr + x.len) ∧
    ((walk segs).flatMap fun r => rangeBytes r.addr r.len) = regionBytes segs ∧
    ((∀ g ∈ segs, 0 < g.len.toNat) →
      ∀ rs : List MergedRange, (rs.flatMap fun r => rangeBytes r.addr r.len) = regionBytes segs →
        (walk segs).length ≤ rs.length)

/-- R165: under the rule's conditions the ranges a transaction leaves in OUT cover exactly the window's bytes, in order;
their lengths add up to `window_length` and none is empty. -/
def Obligations.TransactionCoversWindow : Prop :=
  ∀ (s : State) (c : CtxNum) (m : Word32) (off wlen : Word64) (ps : PageShift) (segs : List Segment),
    ctxExists s.params c = true → undefU3 segs = false → off.toNat < pageSize ps → 1 ≤ wlen.toNat → undefU2 segs = false →
    (∀ g ∈ segs, 0 < g.len.toNat ∧ g.len.toNat % pageSize ps = 0) →
    (segs.map fun g => g.len.toNat).sum =
      pageSize ps * ((off.toNat + wlen.toNat + pageSize ps - 1) / pageSize ps) →
    coalesceTotal segs ≤ m.toNat →
    ∃ (t : State) (es : List (Word64 × Word64)), execAll (transaction c m off wlen ps segs) s = .next t ∧
      (List.range (coalesceTotal segs)).map (fun k => t.outEntry c (BitVec.ofNat 32 k)) = es.map some ∧
      (es.flatMap fun e => rangeBytes e.1.toNat e.2.toNat) = ((regionBytes segs).drop off.toNat).take wlen.toNat ∧
      (es.map fun e => e.2.toNat).sum = wlen.toNat ∧ ∀ e ∈ es, 0 < e.2.toNat
end

