-- ==== Sys2Proof/Laws/Decode.lean ====
section
/-!
SUPPORT. The laws of the opcode map and of the fields of a beat (spec/30_encoding.md R72, R73, R76, R78).
-/

namespace Sys2Proof

/-- The opcode map and its inverse agree (R76). -/
theorem opcodeOf_opcodeByte (o : Opcode) : opcodeOf (opcodeByte o) = some o := by
  cases o <;> rfl

/-- An `OPCODE` that selects an operation is that operation's (R76): no opcode is an alias (R78). -/
theorem opcodeByte_of_opcodeOf (b : OpByte) (o : Opcode) (h : opcodeOf b = some o) : opcodeByte o = b := by
  revert h o
  have : ∀ b : OpByte, ∀ o ∈ opcodeOf b, opcodeByte o = b := by decide
  exact this b

/-- Every bit of an assembled beat (R72). -/
theorem assembleBeat_getLsbD (op : OpByte) (ps : PageShift) (c : CtxNum) (w1 w2 w3 : Word32) (d1 d2 : Word64) (i : Nat) :
    (assembleBeat op ps c w1 w2 w3 d1 d2).getLsbD i =
      if i < 8 then op.getLsbD i else if i < 14 then ps.getLsbD (i - 8) else if i < 18 then c.getLsbD (i - 14)
      else if i < 32 then false else if i < 64 then w1.getLsbD (i - 32) else if i < 96 then w2.getLsbD (i - 64)
      else if i < 128 then w3.getLsbD (i - 96) else if i < 192 then d1.getLsbD (i - 128) else d2.getLsbD (i - 192) := by
  unfold assembleBeat
  simp only [BitVec.getLsbD_cast, BitVec.getLsbD_append, BitVec.getLsbD_zero, Nat.sub_sub]
  simp only [Nat.reduceAdd]
  by_cases h0 : i < 8
  · simp only [h0, if_true]
  simp only [h0, if_false]
  by_cases h1 : i < 14
  · simp only [h1, show i - 8 < 6 by omega, if_true]
  simp only [h1, show ¬ i - 8 < 6 by omega, if_false]
  by_cases h2 : i < 18
  · simp only [h2, show i - 14 < 4 by omega, if_true]
  simp only [h2, show ¬ i - 14 < 4 by omega, if_false]
  by_cases h3 : i < 32
  · simp only [h3, show i - 18 < 14 by omega, if_true]
  simp only [h3, show ¬ i - 18 < 14 by omega, if_false]
  by_cases h4 : i < 64
  · simp only [h4, show i - 32 < 32 by omega, if_true]
  simp only [h4, show ¬ i - 32 < 32 by omega, if_false]
  by_cases h5 : i < 96
  · simp only [h5, show i - 64 < 32 by omega, if_true]
  simp only [h5, show ¬ i - 64 < 32 by omega, if_false]
  by_cases h6 : i < 128
  · simp only [h6, show i - 96 < 32 by omega, if_true]
  simp only [h6, show ¬ i - 96 < 32 by omega, if_false]
  by_cases h7 : i < 192
  · simp only [h7, show i - 128 < 64 by omega, if_true]
  simp only [h7, show ¬ i - 128 < 64 by omega, if_false]

section
variable (op : OpByte) (ps : PageShift) (c : CtxNum) (w1 w2 w3 : Word32) (d1 d2 : Word64)

/-- An assembled beat holds its `OPCODE` (R72). -/
@[simp] theorem fieldOpcode_assembleBeat : fieldOpcode (assembleBeat op ps c w1 w2 w3 d1 d2) = op := by
  apply BitVec.eq_of_getLsbD_eq
  intro i hi
  rw [fieldOpcode, BitVec.getLsbD_extractLsb', assembleBeat_getLsbD]
  split_ifs <;> first | omega | simp [hi]

/-- An assembled beat holds its `PSHIFT` (R72). -/
@[simp] theorem fieldPshift_assembleBeat : fieldPshift (assembleBeat op ps c w1 w2 w3 d1 d2) = ps := by
  apply BitVec.eq_of_getLsbD_eq
  intro i hi
  rw [fieldPshift, BitVec.getLsbD_extractLsb', assembleBeat_getLsbD]
  split_ifs <;> first | omega | simp [hi]

/-- An assembled beat holds its `CTX` (R72). -/
@[simp] theorem fieldCtx_assembleBeat : fieldCtx (assembleBeat op ps c w1 w2 w3 d1 d2) = c := by
  apply BitVec.eq_of_getLsbD_eq
  intro i hi
  rw [fieldCtx, BitVec.getLsbD_extractLsb', assembleBeat_getLsbD]
  split_ifs <;> first | omega | simp [hi]

/-- An assembled beat holds its `W1` (R72). -/
@[simp] theorem fieldW1_assembleBeat : fieldW1 (assembleBeat op ps c w1 w2 w3 d1 d2) = w1 := by
  apply BitVec.eq_of_getLsbD_eq
  intro i hi
  rw [fieldW1, BitVec.getLsbD_extractLsb', assembleBeat_getLsbD]
  split_ifs <;> first | omega | simp [hi]

/-- An assembled beat holds its `W2` (R72). -/
@[simp] theorem fieldW2_assembleBeat : fieldW2 (assembleBeat op ps c w1 w2 w3 d1 d2) = w2 := by
  apply BitVec.eq_of_getLsbD_eq
  intro i hi
  rw [fieldW2, BitVec.getLsbD_extractLsb', assembleBeat_getLsbD]
  split_ifs <;> first | omega | simp [hi]

/-- An assembled beat holds its `W3` (R72). -/
@[simp] theorem fieldW3_assembleBeat : fieldW3 (assembleBeat op ps c w1 w2 w3 d1 d2) = w3 := by
  apply BitVec.eq_of_getLsbD_eq
  intro i hi
  rw [fieldW3, BitVec.getLsbD_extractLsb', assembleBeat_getLsbD]
  split_ifs <;> first | omega | simp [hi]

/-- An assembled beat holds its `D1` (R72). -/
@[simp] theorem fieldD1_assembleBeat : fieldD1 (assembleBeat op ps c w1 w2 w3 d1 d2) = d1 := by
  apply BitVec.eq_of_getLsbD_eq
  intro i hi
  rw [fieldD1, BitVec.getLsbD_extractLsb', assembleBeat_getLsbD]
  split_ifs <;> first | omega | simp [hi]

/-- An assembled beat holds its `D2` (R72). -/
@[simp] theorem fieldD2_assembleBeat : fieldD2 (assembleBeat op ps c w1 w2 w3 d1 d2) = d2 := by
  apply BitVec.eq_of_getLsbD_eq
  intro i hi
  rw [fieldD2, BitVec.getLsbD_extractLsb', assembleBeat_getLsbD]
  split_ifs <;> first | omega | simp [hi]

end

/-- The must-be-zero bits of a beat by field: a beat meets a mask written by field when each field does. -/
theorem assembleBeat_and (op op' : OpByte) (ps ps' : PageShift) (c c' : CtxNum) (rs' : BitVec 14)
    (w1 w1' w2 w2' w3 w3' : Word32) (d1 d1' d2 d2' : Word64) :
    assembleBeat op ps c w1 w2 w3 d1 d2 &&&
        (d2' ++ d1' ++ w3' ++ w2' ++ w1' ++ rs' ++ c' ++ ps' ++ op').cast (by decide) =
      assembleBeat (op &&& op') (ps &&& ps') (c &&& c') (w1 &&& w1') (w2 &&& w2') (w3 &&& w3') (d1 &&& d1')
        (d2 &&& d2') := by
  unfold assembleBeat
  apply BitVec.eq_of_toNat_eq
  simp only [BitVec.toNat_and, BitVec.toNat_cast]
  rw [← BitVec.toNat_and]
  simp only [BitVec.and_append, BitVec.zero_and]

end Sys2Proof
end

