-- ==== Sys2Proof/Laws/State.lean ====
section
/-!
SUPPORT. One lemma per field per update of the state, true by unfolding, so that no later proof unfolds a record update.
-/

namespace Sys2Proof.Machine

variable (s : State)

/-! ### `respond` -/
section
variable (r : Response) (w : Option OutWrite)
@[simp] theorem State.respond_params : (s.respond r w).params = s.params := rfl
@[simp] theorem State.respond_contexts : (s.respond r w).contexts = s.contexts := rfl
@[simp] theorem State.respond_rspBuf : (s.respond r w).rspBuf = s.rspBuf ++ [⟨r, w⟩] := rfl
@[simp] theorem State.respond_settled : (s.respond r w).settled = s.settled := rfl
@[simp] theorem State.respond_port : (s.respond r w).port = s.port := rfl
@[simp] theorem State.respond_delivered : (s.respond r w).delivered = s.delivered := rfl
@[simp] theorem State.respond_draws : (s.respond r w).draws = s.draws := rfl
@[simp] theorem State.respond_context (c : CtxNum) : (s.respond r w).context c = s.context c := rfl
end

/-! ### `raiseIllegal` -/
section
variable (op : OpByte) (k : IllegalCause)
@[simp] theorem raiseIllegal_params : (raiseIllegal op k s).params = s.params := rfl
@[simp] theorem raiseIllegal_contexts : (raiseIllegal op k s).contexts = s.contexts := rfl
@[simp] theorem raiseIllegal_rspBuf : (raiseIllegal op k s).rspBuf = s.rspBuf ++ [⟨illegalResponse op k, none⟩] := rfl
@[simp] theorem raiseIllegal_settled : (raiseIllegal op k s).settled = s.settled := rfl
@[simp] theorem raiseIllegal_port : (raiseIllegal op k s).port = s.port := rfl
@[simp] theorem raiseIllegal_delivered : (raiseIllegal op k s).delivered = s.delivered := rfl
@[simp] theorem raiseIllegal_draws : (raiseIllegal op k s).draws = s.draws := rfl
@[simp] theorem raiseIllegal_context (c : CtxNum) : (raiseIllegal op k s).context c = s.context c := rfl
end

/-! ### `setContext` -/
section
variable (c : CtxNum) (r : CoRegs)
@[simp] theorem State.setContext_params : (s.setContext c r).params = s.params := rfl
@[simp] theorem State.setContext_rspBuf : (s.setContext c r).rspBuf = s.rspBuf := rfl
@[simp] theorem State.setContext_settled : (s.setContext c r).settled = s.settled := rfl
@[simp] theorem State.setContext_port : (s.setContext c r).port = s.port := rfl
@[simp] theorem State.setContext_delivered : (s.setContext c r).delivered = s.delivered := rfl
@[simp] theorem State.setContext_draws : (s.setContext c r).draws = s.draws := rfl

@[simp] theorem State.setContext_context_self : (s.setContext c r).context c = r := by
  simp [State.context, State.setContext]

theorem State.setContext_context_ne (d : CtxNum) (h : d ≠ c) : (s.setContext c r).context d = s.context d := by
  have hn : c.toNat ≠ d.toNat := fun e => h (BitVec.eq_of_toNat_eq e.symm)
  simp [State.context, State.setContext, Vector.getElem_set_ne, hn]
end

/-! ### `complete` -/
section
variable (c : CtxNum) (x : CoResult) (r : Response)
@[simp] theorem State.complete_params : (s.complete c x r).params = s.params := rfl
@[simp] theorem State.complete_rspBuf : (s.complete c x r).rspBuf = s.rspBuf ++ [⟨r, x.write⟩] := rfl
@[simp] theorem State.complete_settled : (s.complete c x r).settled = s.settled := rfl
@[simp] theorem State.complete_port : (s.complete c x r).port = s.port := rfl
@[simp] theorem State.complete_delivered : (s.complete c x r).delivered = s.delivered := rfl
@[simp] theorem State.complete_draws : (s.complete c x r).draws = x.draws := rfl

@[simp] theorem State.complete_context_self : (s.complete c x r).context c = x.regs :=
  State.setContext_context_self s c x.regs

theorem State.complete_context_ne (d : CtxNum) (h : d ≠ c) : (s.complete c x r).context d = s.context d :=
  State.setContext_context_ne s c x.regs d h
end

/-! ### `resetBlock` -/
@[simp] theorem State.resetBlock_params : s.resetBlock.params = s.params := rfl
@[simp] theorem State.resetBlock_rspBuf : s.resetBlock.rspBuf = [] := rfl
@[simp] theorem State.resetBlock_settled :
    s.resetBlock.settled = applyWrites s.params s.settled (survivingWrites s.draws s.rspBuf) := rfl
@[simp] theorem State.resetBlock_port : s.resetBlock.port = s.port := rfl
@[simp] theorem State.resetBlock_delivered : s.resetBlock.delivered = s.delivered := rfl
@[simp] theorem State.resetBlock_draws : s.resetBlock.draws = s.draws + s.rspBuf.length := rfl
@[simp] theorem State.resetBlock_context (c : CtxNum) : s.resetBlock.context c = CoRegs.reset := by
  simp [State.context, State.resetBlock]

/-! ### `deliver`, where a response stands in the buffer -/
section
variable (f : InFlight) (rest : List InFlight) (h : s.rspBuf = f :: rest)
include h
theorem State.deliver_rspBuf : s.deliver.rspBuf = rest := by simp [State.deliver, h]
theorem State.deliver_settled : s.deliver.settled = applyWrites s.params s.settled (inFlightWrites [f]) := by
  simp [State.deliver, h]
theorem State.deliver_delivered : s.deliver.delivered = s.delivered ++ [responseBeat f.rsp] := by
  simp [State.deliver, h]
end

theorem State.deliver_of_empty (h : s.rspBuf = []) : s.deliver = s := by simp [State.deliver, h]
@[simp] theorem State.deliver_params : s.deliver.params = s.params := by unfold State.deliver; split <;> rfl
@[simp] theorem State.deliver_contexts : s.deliver.contexts = s.contexts := by unfold State.deliver; split <;> rfl
@[simp] theorem State.deliver_port : s.deliver.port = s.port := by unfold State.deliver; split <;> rfl
@[simp] theorem State.deliver_draws : s.deliver.draws = s.draws := by unfold State.deliver; split <;> rfl
@[simp] theorem State.deliver_context (c : CtxNum) : s.deliver.context c = s.context c := by
  simp [State.context]

/-! ### `deliverAll` and `makeRoom` -/
@[simp] theorem State.deliverAll_params : s.deliverAll.params = s.params := rfl
@[simp] theorem State.deliverAll_contexts : s.deliverAll.contexts = s.contexts := rfl
@[simp] theorem State.deliverAll_rspBuf : s.deliverAll.rspBuf = [] := rfl
@[simp] theorem State.deliverAll_settled : s.deliverAll.settled = s.out := rfl
@[simp] theorem State.deliverAll_port : s.deliverAll.port = s.port := rfl
@[simp] theorem State.deliverAll_delivered :
    s.deliverAll.delivered = s.delivered ++ s.rspBuf.map fun f => responseBeat f.rsp := rfl
@[simp] theorem State.deliverAll_draws : s.deliverAll.draws = s.draws := rfl

theorem State.makeRoom_hasRoom : s.makeRoom.hasRoom = true := by
  unfold State.makeRoom
  split
  · assumption
  · simp [State.hasRoom, Config.Params.rspDepth]

theorem State.makeRoom_of_room (h : s.hasRoom = true) : s.makeRoom = s := by simp [State.makeRoom, h]

/-! ### `offerFirst` -/
section
variable (b : Beat)
@[simp] theorem State.offerFirst_params : (s.offerFirst b).params = s.params := rfl
@[simp] theorem State.offerFirst_contexts : (s.offerFirst b).contexts = s.contexts := rfl
@[simp] theorem State.offerFirst_rspBuf : (s.offerFirst b).rspBuf = s.rspBuf := rfl
@[simp] theorem State.offerFirst_settled : (s.offerFirst b).settled = s.settled := rfl
@[simp] theorem State.offerFirst_port : (s.offerFirst b).port = .command b :: s.port := rfl
@[simp] theorem State.offerFirst_delivered : (s.offerFirst b).delivered = s.delivered := rfl
@[simp] theorem State.offerFirst_draws : (s.offerFirst b).draws = s.draws := rfl
end

/-! ### `port` replaced -/
section
variable (es : List PortEvent)
@[simp] theorem State.withPort_context (c : CtxNum) : ({ s with port := es } : State).context c = s.context c := rfl
@[simp] theorem State.withPort_out : ({ s with port := es } : State).out = s.out := rfl
@[simp] theorem State.withPort_hasRoom : ({ s with port := es } : State).hasRoom = s.hasRoom := rfl
end

/-! ### `markUndef` -/
section
variable (g : CoRegs) (b : Bool)
@[simp] theorem CoRegs.markUndef_coBusy : (g.markUndef b).coBusy = g.coBusy := rfl
@[simp] theorem CoRegs.markUndef_cfgWoff : (g.markUndef b).cfgWoff = g.cfgWoff := rfl
@[simp] theorem CoRegs.markUndef_cfgWlen : (g.markUndef b).cfgWlen = g.cfgWlen := rfl
@[simp] theorem CoRegs.markUndef_cfgMaxout : (g.markUndef b).cfgMaxout = g.cfgMaxout := rfl
@[simp] theorem CoRegs.markUndef_cfgPshift : (g.markUndef b).cfgPshift = g.cfgPshift := rfl
@[simp] theorem CoRegs.markUndef_accV : (g.markUndef b).accV = g.accV := rfl
@[simp] theorem CoRegs.markUndef_accAddr : (g.markUndef b).accAddr = g.accAddr := rfl
@[simp] theorem CoRegs.markUndef_accLen : (g.markUndef b).accLen = g.accLen := rfl
@[simp] theorem CoRegs.markUndef_accCarry : (g.markUndef b).accCarry = g.accCarry := rfl
@[simp] theorem CoRegs.markUndef_coCount : (g.markUndef b).coCount = g.coCount := rfl
@[simp] theorem CoRegs.markUndef_coUndef : (g.markUndef b).coUndef = (g.coUndef || b) := rfl
end

/-! ### `withLength` -/
section
variable (g : CoRegs) (n : Nat)
@[simp] theorem CoRegs.withLength_coBusy : (g.withLength n).coBusy = g.coBusy := rfl
@[simp] theorem CoRegs.withLength_cfgWoff : (g.withLength n).cfgWoff = g.cfgWoff := rfl
@[simp] theorem CoRegs.withLength_cfgWlen : (g.withLength n).cfgWlen = g.cfgWlen := rfl
@[simp] theorem CoRegs.withLength_cfgMaxout : (g.withLength n).cfgMaxout = g.cfgMaxout := rfl
@[simp] theorem CoRegs.withLength_cfgPshift : (g.withLength n).cfgPshift = g.cfgPshift := rfl
@[simp] theorem CoRegs.withLength_accV : (g.withLength n).accV = g.accV := rfl
@[simp] theorem CoRegs.withLength_accAddr : (g.withLength n).accAddr = g.accAddr := rfl
@[simp] theorem CoRegs.withLength_coCount : (g.withLength n).coCount = g.coCount := rfl
@[simp] theorem CoRegs.withLength_coUndef : (g.withLength n).coUndef = g.coUndef := rfl
@[simp] theorem CoRegs.withLength_accLen : (g.withLength n).accLen = trunc64 n := rfl
@[simp] theorem CoRegs.withLength_accCarry : (g.withLength n).accCarry = decide (2 ^ 64 ≤ n) := rfl
end

/-! ### `openRange` -/
section
variable (g : CoRegs) (a : Word64) (l : Word32)
@[simp] theorem CoRegs.openRange_coBusy : (g.openRange a l).coBusy = g.coBusy := rfl
@[simp] theorem CoRegs.openRange_cfgWoff : (g.openRange a l).cfgWoff = g.cfgWoff := rfl
@[simp] theorem CoRegs.openRange_cfgWlen : (g.openRange a l).cfgWlen = g.cfgWlen := rfl
@[simp] theorem CoRegs.openRange_cfgMaxout : (g.openRange a l).cfgMaxout = g.cfgMaxout := rfl
@[simp] theorem CoRegs.openRange_cfgPshift : (g.openRange a l).cfgPshift = g.cfgPshift := rfl
@[simp] theorem CoRegs.openRange_coCount : (g.openRange a l).coCount = g.coCount := rfl
@[simp] theorem CoRegs.openRange_coUndef : (g.openRange a l).coUndef = g.coUndef := rfl
@[simp] theorem CoRegs.openRange_accV : (g.openRange a l).accV = true := rfl
@[simp] theorem CoRegs.openRange_accAddr : (g.openRange a l).accAddr = a := rfl
@[simp] theorem CoRegs.openRange_accLen : (g.openRange a l).accLen = l.setWidth 64 := rfl
@[simp] theorem CoRegs.openRange_accCarry : (g.openRange a l).accCarry = false := rfl
end

end Sys2Proof.Machine
end

