-- ==== Sys2Proof/Laws/Memory.lean ====
section
/-!
SUPPORT. The laws of byte memory and of the output range buffers: a read after a write, the canonical form kept by
every operation, and an entry read back as it was written (spec/20_memory.md R51, R53, R56).
-/

namespace Sys2Proof.Machine

/-! ### One byte -/

@[simp] theorem Memory.read_write_self (m : Memory) (a : Nat) (b : Byte) : (Memory.write m a b).read a = some b := by
  induction m with
  | nil => simp [Memory.write, Memory.read]
  | cons x rest ih =>
    obtain ⟨y, v⟩ := x
    by_cases h1 : a < y
    · simp [Memory.write, Memory.read, h1]
    · by_cases h2 : a = y
      · simp [Memory.write, Memory.read, h2]
      · have h3 : ¬ y = a := fun e => h2 e.symm
        simp [Memory.write, Memory.read, h1, h2, h3, ih]

theorem Memory.read_write_ne (m : Memory) (a a' : Nat) (b : Byte) (h : a' ≠ a) :
    (Memory.write m a b).read a' = m.read a' := by
  induction m with
  | nil => simp [Memory.write, Memory.read, Ne.symm h]
  | cons x rest ih =>
    obtain ⟨y, v⟩ := x
    by_cases h1 : a < y
    · simp [Memory.write, Memory.read, h1, Ne.symm h]
    · by_cases h2 : a = y
      · have h3 : ¬ y = a' := fun e => h (by omega)
        have h4 : ¬ a = a' := fun e => h e.symm
        simp [Memory.write, Memory.read, h2, h3]
      · simp [Memory.write, Memory.read, h1, h2, ih]

theorem Memory.mem_write (m : Memory) (a : Nat) (b : Byte) (x : Host.Cell) (h : x ∈ Memory.write m a b) :
    x = (a, b) ∨ x ∈ m := by
  induction m with
  | nil => simpa [Memory.write] using h
  | cons y rest ih =>
    obtain ⟨z, v⟩ := y
    by_cases h1 : a < z
    · simpa [Memory.write, h1] using h
    · by_cases h2 : a = z
      · rcases (by simpa [Memory.write, h2] using h : x = (z, b) ∨ x ∈ rest) with h | h
        · exact .inl (by rw [h, h2])
        · exact .inr (List.mem_cons_of_mem _ h)
      · rcases (by simpa [Memory.write, h1, h2] using h : x = (z, v) ∨ x ∈ Memory.write rest a b) with h | h
        · exact .inr (by simp [h])
        · rcases ih h with h | h
          · exact .inl h
          · exact .inr (List.mem_cons_of_mem _ h)

/-- A write keeps the canonical form. -/
theorem Memory.write_wf (m : Memory) (a : Nat) (b : Byte) (h : m.wf = true) : (Memory.write m a b).wf = true := by
  simp only [Memory.wf, decide_eq_true_eq] at h ⊢
  induction m with
  | nil => simp [Memory.write]
  | cons x rest ih =>
    obtain ⟨y, v⟩ := x
    obtain ⟨hhead, htail⟩ := List.pairwise_cons.mp h
    by_cases h1 : a < y
    · simp only [Memory.write, h1, if_true]
      refine List.pairwise_cons.mpr ⟨?_, h⟩
      intro z hz
      rcases List.mem_cons.mp hz with rfl | hz
      · exact h1
      · exact lt_trans h1 (hhead z hz)
    · by_cases h2 : a = y
      · simp only [Memory.write, h2, if_true, if_false, lt_irrefl]
        exact List.pairwise_cons.mpr ⟨hhead, htail⟩
      · simp only [Memory.write, h1, h2, if_false]
        refine List.pairwise_cons.mpr ⟨?_, ih htail⟩
        intro z hz
        rcases Memory.mem_write rest a b z hz with rfl | hz
        · show y < a
          omega
        · exact hhead z hz

/-! ### Consecutive bytes -/

theorem Memory.writeBytes_wf (bs : List Byte) (m : Memory) (a : Nat) (h : m.wf = true) :
    (Memory.writeBytes m a bs).wf = true := by
  induction bs generalizing m a with
  | nil => exact h
  | cons b bs ih => exact ih _ _ (Memory.write_wf m a b h)

theorem Memory.read_writeBytes_outside (bs : List Byte) (m : Memory) (a x : Nat) (h : x < a ∨ a + bs.length ≤ x) :
    (Memory.writeBytes m a bs).read x = m.read x := by
  induction bs generalizing m a with
  | nil => rfl
  | cons b bs ih =>
    simp only [List.length_cons] at h
    show (Memory.writeBytes (Memory.write m a b) (a + 1) bs).read x = m.read x
    rw [ih _ _ (by omega), Memory.read_write_ne _ _ _ _ (by omega)]

theorem Memory.read_writeBytes_inside (bs : List Byte) (m : Memory) (a j : Nat) (h : j < bs.length) :
    (Memory.writeBytes m a bs).read (a + j) = some bs[j] := by
  induction bs generalizing m a j with
  | nil => simp at h
  | cons b bs ih =>
    show (Memory.writeBytes (Memory.write m a b) (a + 1) bs).read (a + j) = _
    cases j with
    | zero => simp [Memory.read_writeBytes_outside bs _ (a + 1) a (by omega)]
    | succ j =>
      have := ih (Memory.write m a b) (a + 1) j (by simpa using h)
      rw [show a + 1 + j = a + (j + 1) by omega] at this
      simpa using this

theorem Memory.readBytes_eq_some (m : Memory) (a : Nat) (bs : List Byte)
    (h : ∀ j (hj : j < bs.length), m.read (a + j) = some bs[j]) : m.readBytes a bs.length = some bs := by
  induction bs generalizing a with
  | nil => rfl
  | cons b bs ih =>
    have h0 : m.read a = some b := h 0 (by simp)
    have h1 : m.readBytes (a + 1) bs.length = some bs := by
      apply ih
      intro j hj
      have := h (j + 1) (by simpa using hj)
      rw [show a + (j + 1) = a + 1 + j by omega] at this
      simpa using this
    simp [Memory.readBytes, h0, h1]

theorem Memory.readBytes_congr (m m' : Memory) (a n : Nat) (h : ∀ j < n, m.read (a + j) = m'.read (a + j)) :
    m.readBytes a n = m'.readBytes a n := by
  induction n generalizing a with
  | zero => rfl
  | succ n ih =>
    have h0 : m.read a = m'.read a := by simpa using h 0 (by omega)
    have h1 : m.readBytes (a + 1) n = m'.readBytes (a + 1) n := by
      apply ih
      intro j hj
      have := h (j + 1) (by omega)
      rwa [show a + (j + 1) = a + 1 + j by omega] at this
    simp [Memory.readBytes, h0, h1]

/-! ### Little-endian bytes -/

@[simp] theorem leBytes_length (n : Nat) {w : Nat} (v : BitVec w) : (leBytes n v).length = n := by
  simp [leBytes]

theorem leBytes_getElem (n : Nat) {w : Nat} (v : BitVec w) (j : Nat) (h : j < n) :
    (leBytes n v)[j]'(by simpa using h) = v.extractLsb' (8 * j) 8 := by
  simp [leBytes]

@[simp] theorem entryBytes_length (a l : Word64) : (entryBytes a l).length = 16 := by
  simp [entryBytes]

/-- Bit `i` of the bit vector of little-endian bytes is bit `i mod 8` of byte `i / 8`. -/
theorem ofLeBytes_getLsbD (w : Nat) (bs : List Byte) (i : Nat) (hi : i < w) :
    (ofLeBytes w bs).getLsbD i = (bs[i / 8]?.getD 0#8).getLsbD (i % 8) := by
  induction bs generalizing i with
  | nil => simp [ofLeBytes]
  | cons b bs ih =>
    show (ofLeBytes w bs <<< 8 ||| b.setWidth w).getLsbD i = _
    by_cases h : i < 8
    · simp [h, hi, Nat.div_eq_of_lt h, Nat.mod_eq_of_lt h]
    · have hd : i / 8 = (i - 8) / 8 + 1 := by omega
      have hm : i % 8 = (i - 8) % 8 := by omega
      have hb : b.getLsbD i = false := BitVec.getLsbD_of_ge _ _ (by omega)
      simp only [BitVec.getLsbD_or, BitVec.getLsbD_shiftLeft, hi, h, BitVec.getLsbD_setWidth, hb, hd, hm,
        ih (i - 8) (by omega), List.getElem?_cons_succ]
      simp

/-- A bit vector of `n` whole bytes is that of its little-endian bytes. -/
theorem ofLeBytes_leBytes (n : Nat) (v : BitVec (8 * n)) : ofLeBytes (8 * n) (leBytes n v) = v := by
  apply BitVec.eq_of_getLsbD_eq
  intro i hi
  have hn : i / 8 < n := by omega
  have hmod : i % 8 < 8 := Nat.mod_lt _ (by omega)
  rw [ofLeBytes_getLsbD _ _ _ hi, List.getElem?_eq_getElem (by simpa using hn), Option.getD_some, leBytes_getElem n v _ hn]
  simp [hmod, Nat.div_add_mod]

/-- The little-endian bytes of a 64-bit field give the field back. -/
theorem ofLeBytes_leBytes_64 (v : Word64) : ofLeBytes 64 (leBytes 8 v) = v := ofLeBytes_leBytes 8 v

/-! ### The output range buffers -/

/-- An `OutWrite` keeps the canonical form of the memory. -/
theorem applyWrite_wf (p : Config.Params) (m : Memory) (w : OutWrite) (h : m.wf = true) : (applyWrite p m w).wf = true :=
  Memory.writeBytes_wf _ _ _ h

theorem applyWrites_wf (p : Config.Params) (ws : List OutWrite) (m : Memory) (h : m.wf = true) :
    (applyWrites p m ws).wf = true := by
  induction ws generalizing m with
  | nil => exact h
  | cons w ws ih => exact ih _ (applyWrite_wf p m w h)

/-- Outside its 16 bytes an `OutWrite` changes nothing (R56). -/
theorem applyWrite_read_outside (p : Config.Params) (m : Memory) (w : OutWrite) (x : Nat)
    (h : x < entryAddr p w.ctx w.index ∨ entryAddr p w.ctx w.index + 16 ≤ x) :
    (applyWrite p m w).read x = m.read x :=
  Memory.read_writeBytes_outside _ _ _ _ (by simpa using h)

/-- The bytes an `OutWrite` stores (R53). -/
theorem applyWrite_read_inside (p : Config.Params) (m : Memory) (w : OutWrite) (j : Nat) (h : j < 16) :
    (applyWrite p m w).read (entryAddr p w.ctx w.index + j) =
      some ((entryBytes w.addr w.len)[j]'(by simpa using h)) :=
  Memory.read_writeBytes_inside _ _ _ _ (by simpa using h)

/-- An entry just written reads back as its address and length (R53). -/
theorem readEntry_applyWrite_self (p : Config.Params) (m : Memory) (w : OutWrite) :
    readEntry p (applyWrite p m w) w.ctx w.index = some (w.addr, w.len) := by
  have ha : (applyWrite p m w).readBytes (entryAddr p w.ctx w.index) 8 = some (leBytes 8 w.addr) := by
    have := Memory.readBytes_eq_some (applyWrite p m w) (entryAddr p w.ctx w.index) (leBytes 8 w.addr) (by
      intro j hj
      have hj' : j < 8 := by simpa using hj
      rw [applyWrite_read_inside p m w j (by omega)]
      simp only [entryBytes, Option.some.injEq]
      rw [List.getElem_append_left])
    simpa using this
  have hl : (applyWrite p m w).readBytes (entryAddr p w.ctx w.index + 8) 8 = some (leBytes 8 w.len) := by
    have := Memory.readBytes_eq_some (applyWrite p m w) (entryAddr p w.ctx w.index + 8) (leBytes 8 w.len) (by
      intro j hj
      have hj' : j < 8 := by simpa using hj
      rw [show entryAddr p w.ctx w.index + 8 + j = entryAddr p w.ctx w.index + (8 + j) by omega,
        applyWrite_read_inside p m w (8 + j) (by omega)]
      simp only [entryBytes, Option.some.injEq]
      rw [List.getElem_append_right (by simp)]
      simp)
    simpa using this
  simp [readEntry, ha, hl, ofLeBytes_leBytes_64]

@[simp] theorem inFlightWrites_nil : inFlightWrites [] = [] := rfl

theorem inFlightWrites_append (xs ys : List InFlight) :
    inFlightWrites (xs ++ ys) = inFlightWrites xs ++ inFlightWrites ys := by
  simp [inFlightWrites]

@[simp] theorem inFlightWrites_one_none (r : Response) : inFlightWrites [⟨r, none⟩] = [] := rfl
@[simp] theorem inFlightWrites_one_some (r : Response) (w : OutWrite) : inFlightWrites [⟨r, some w⟩] = [w] := rfl

theorem applyWrites_append (p : Config.Params) (m : Memory) (xs ys : List OutWrite) :
    applyWrites p m (xs ++ ys) = applyWrites p (applyWrites p m xs) ys := by
  simp [applyWrites]

/-- A command that writes nothing leaves OUT as it is. -/
theorem out_of_no_write (s t : State) (r : Response) (hp : t.params = s.params) (hs : t.settled = s.settled)
    (hb : t.rspBuf = s.rspBuf ++ [⟨r, none⟩]) : t.out = s.out := by
  simp [State.out, hp, hs, hb, inFlightWrites_append]

/-- A command's write takes effect on OUT at once (R58). -/
theorem out_of_write (s t : State) (r : Response) (w : OutWrite) (hp : t.params = s.params)
    (hs : t.settled = s.settled) (hb : t.rspBuf = s.rspBuf ++ [⟨r, some w⟩]) :
    t.out = applyWrite s.params s.out w := by
  simp [State.out, hp, hs, hb, inFlightWrites_append, applyWrites]

@[simp] theorem State.respond_out_none (s : State) (r : Response) : (s.respond r none).out = s.out :=
  out_of_no_write s _ r rfl rfl rfl

/-- Taking a response changes nothing in OUT (R59). -/
@[simp] theorem State.deliver_out (s : State) : s.deliver.out = s.out := by
  cases h : s.rspBuf with
  | nil => rw [State.deliver_of_empty s h]
  | cons f rest =>
    have : f :: rest = [f] ++ rest := rfl
    simp only [State.out, State.deliver_params, State.deliver_rspBuf s f rest h, State.deliver_settled s f rest h, h]
    rw [this, inFlightWrites_append, applyWrites_append]

@[simp] theorem State.deliverAll_out (s : State) : s.deliverAll.out = s.out := rfl

/-- OUT as it stands is in canonical form. -/
theorem State.out_wf (s : State) (h : s.settled.wf = true) : s.out.wf = true := applyWrites_wf _ _ _ h

/-- The memory of the state after reset is in canonical form. -/
theorem State.resetWith_wf (p : Config.Params) : (State.resetWith p).settled.wf = true := by
  simp [State.resetWith, Memory.wf]

end Sys2Proof.Machine
end

