-- ==== Sys2Proof/Laws/Ops.lean ====
section
/-!
SUPPORT. For each shared operation one lemma that says once everything it can do, for proofs to cite instead of
unfolding it.
-/

namespace Sys2Proof.Machine

/-- Cause 3 or the effect (30_encoding.md R77). -/
theorem withContext_cases (o : Opcode) (c : CtxNum) (s effect : State) :
    (ctxExists s.params c = true ∧ withContext o c s effect = effect) ∨
    (ctxExists s.params c = false ∧ withContext o c s effect = raiseIllegal (opcodeByte o) .badContext s) := by
  unfold withContext
  cases h : ctxExists s.params c <;> simp

/-- Cause 3, cause 4 or the effect, in this order (R77, R203). -/
theorem withOpenContext_cases (o : Opcode) (c : CtxNum) (s effect : State) :
    (ctxExists s.params c = true ∧ (s.context c).coBusy = true ∧ withOpenContext o c s effect = effect) ∨
    (ctxExists s.params c = true ∧ (s.context c).coBusy = false ∧
      withOpenContext o c s effect = raiseIllegal (opcodeByte o) .outOfSequence s) ∨
    (ctxExists s.params c = false ∧ withOpenContext o c s effect = raiseIllegal (opcodeByte o) .badContext s) := by
  unfold withOpenContext withContext
  cases h : ctxExists s.params c <;> cases h' : (s.context c).coBusy <;> simp

/-- `Close` leaves every register but the count (R158). -/
theorem closeRange_regs (isLast : Bool) (c : CtxNum) (r : CoRegs) (n : Nat) :
    (closeRange isLast c r n).regs = { r with coCount := bumpCount r.coCount } := by
  unfold closeRange
  split <;> rfl

/-- Everything `Close` can do (R158): nothing written at or above `max_out`; below it the entry with index `CO_COUNT`,
trimmed where no condition U1 to U5 holds, else with two free values. -/
theorem closeRange_cases (isLast : Bool) (c : CtxNum) (r : CoRegs) (n : Nat) :
    (r.cfgMaxout.toNat ≤ r.coCount.toNat ∧
      closeRange isLast c r n = ⟨{ r with coCount := bumpCount r.coCount }, none, n⟩) ∨
    (r.coCount.toNat < r.cfgMaxout.toNat ∧ r.coUndef = false ∧ 0 ≤ closedLen isLast r ∧ closedAddr r < 2 ^ 64 ∧
      closeRange isLast c r n = ⟨{ r with coCount := bumpCount r.coCount },
        some ⟨c, r.coCount, trunc64 (closedAddr r), trunc64 (closedLen isLast r)⟩, n⟩) ∨
    (r.coCount.toNat < r.cfgMaxout.toNat ∧ (r.coUndef = true ∨ closedLen isLast r < 0 ∨ 2 ^ 64 ≤ closedAddr r) ∧
      closeRange isLast c r n = ⟨{ r with coCount := bumpCount r.coCount },
        some ⟨c, r.coCount, Config.any64 n, Config.any64 (n + 1)⟩, n + 2⟩) := by
  unfold closeRange closedEntry
  by_cases h : r.coCount.toNat < r.cfgMaxout.toNat
  · by_cases hu : r.coUndef = true ∨ closedLen isLast r < 0 ∨ 2 ^ 64 ≤ closedAddr r
    · exact .inr (.inr ⟨h, hu, by simp only [h, hu, if_true]⟩)
    · refine .inr (.inl ⟨h, ?_, ?_, ?_, by simp only [h, hu, if_true, if_false]⟩)
      · cases hc : r.coUndef
        · rfl
        · exact absurd (.inl hc) hu
      · exact not_lt.mp fun hl => hu (.inr (.inl hl))
      · exact not_le.mp fun hl => hu (.inr (.inr hl))
  · exact .inl ⟨not_lt.mp h, by simp only [h, if_false]⟩

/-- The write of `Close`, if any, goes to the context's entry `CO_COUNT`, below `max_out` (R51, R52). -/
theorem closeRange_write (isLast : Bool) (c : CtxNum) (r : CoRegs) (n : Nat) (w : OutWrite)
    (h : (closeRange isLast c r n).write = some w) :
    w.ctx = c ∧ w.index = r.coCount ∧ r.coCount.toNat < r.cfgMaxout.toNat := by
  rcases closeRange_cases isLast c r n with ⟨_, e⟩ | ⟨hlt, _, _, _, e⟩ | ⟨hlt, _, e⟩ <;> rw [e] at h
  · simp at h
  · obtain rfl := Option.some.inj h
    exact ⟨rfl, rfl, hlt⟩
  · obtain rfl := Option.some.inj h
    exact ⟨rfl, rfl, hlt⟩

/-- The first segment of a transaction opens a range (R157). -/
theorem acceptSegment_first (c : CtxNum) (a : Word64) (l : Word32) (r : CoRegs) (n : Nat) (h : r.accV = false) :
    acceptSegment c a l r n =
      ⟨(r.markUndef (decide (2 ^ 64 < a.toNat + l.toNat))).openRange a l, none, n⟩ := by
  simp [acceptSegment, h]

/-- An adjacent segment extends the open range (R157). -/
theorem acceptSegment_merge (c : CtxNum) (a : Word64) (l : Word32) (r : CoRegs) (n : Nat) (h : r.accV = true)
    (ha : a.toNat = accEnd r) :
    acceptSegment c a l r n =
      ⟨((r.markUndef (decide (2 ^ 64 < a.toNat + l.toNat))).markUndef
          (decide (2 ^ 64 ≤ accLength r + l.toNat))).withLength (accLength r + l.toNat), none, n⟩ := by
  simp [acceptSegment, h, ha]

/-- The registers a segment that is not adjacent hands to `Close` (R157). -/
def closingRegs (a : Word64) (l : Word32) (r : CoRegs) : CoRegs :=
  (r.markUndef (decide (2 ^ 64 < a.toNat + l.toNat))).markUndef (decide (a.toNat < accEnd r))

/-- A segment that is not adjacent closes the open range and opens its own (R157). -/
theorem acceptSegment_close (c : CtxNum) (a : Word64) (l : Word32) (r : CoRegs) (n : Nat) (h : r.accV = true)
    (ha : a.toNat ≠ accEnd r) :
    acceptSegment c a l r n =
      ⟨({ closingRegs a l r with coCount := bumpCount r.coCount } : CoRegs).openRange a l,
        (closeRange false c (closingRegs a l r) n).write, (closeRange false c (closingRegs a l r) n).draws⟩ := by
  simp [acceptSegment, h, ha, closingRegs, closeRange_regs]

/-- A segment that is adjacent finds no carry: an exact end of 2^64 or more is no segment's address (R167). -/
theorem accCarry_of_adjacent (a : Word64) (r : CoRegs) (h : a.toNat = accEnd r) : r.accCarry = false := by
  cases hc : r.accCarry with
  | false => rfl
  | true =>
    have := a.isLt
    simp only [accEnd, accLength, hc, if_true] at h
    omega

/-- The exact length of a range of a given exact length below 2^65. -/
theorem accLength_withLength (r : CoRegs) (n : Nat) (h : n < 2 ^ 65) : accLength (r.withLength n) = n := by
  simp only [accLength, CoRegs.withLength_accLen, CoRegs.withLength_accCarry, trunc64, BitVec.toNat_ofInt,
    decide_eq_true_eq]
  split <;> omega

/-- After a segment the open range ends, exactly, where the segment ends (10_state.md R28), whatever came before. -/
theorem acceptSegment_accEnd (c : CtxNum) (a : Word64) (l : Word32) (r : CoRegs) (n : Nat) :
    accEnd (acceptSegment c a l r n).regs = a.toNat + l.toNat := by
  have ha := a.isLt
  have hl := l.isLt
  have one : ∀ g : CoRegs, accEnd (g.openRange a l) = a.toNat + l.toNat := by
    intro g
    simp [accEnd, accLength]
    omega
  cases hv : r.accV with
  | false => rw [acceptSegment_first c a l r n hv, one]
  | true =>
    by_cases he : a.toNat = accEnd r
    · rw [acceptSegment_merge c a l r n hv he, accEnd, accLength_withLength]
      · simp only [CoRegs.withLength_accAddr, CoRegs.markUndef_accAddr]
        unfold accEnd at he
        omega
      · unfold accEnd at he
        omega
    · rw [acceptSegment_close c a l r n hv he, one]

/-- Everything the end of a list can do (R159). -/
theorem finishList_cases (c : CtxNum) (r : CoRegs) (n : Nat) :
    (r.accV = false ∧ finishList c r n = ⟨r, none, n⟩) ∨
    (r.accV = true ∧ finishList c r n = closeRange true c r n) := by
  unfold finishList
  cases r.accV <;> simp

/-- The event chosen can take place, and it and the events left are the events listed. -/
theorem takeFirst_some (ok : PortEvent → Bool) (es : List PortEvent) (e : PortEvent) (rest : List PortEvent)
    (h : takeFirst ok es = some (e, rest)) :
    ok e = true ∧ ∃ before after, es = before ++ e :: after ∧ rest = before ++ after ∧ ∀ x ∈ before, ok x = false := by
  induction es generalizing e rest with
  | nil => simp [takeFirst] at h
  | cons x xs ih =>
    by_cases hx : ok x = true
    · obtain ⟨rfl, rfl⟩ : x = e ∧ xs = rest := by simpa [takeFirst, hx] using h
      exact ⟨hx, [], xs, rfl, rfl, by simp⟩
    · have hx' : ok x = false := by simpa using hx
      cases hr : takeFirst ok xs with
      | none => simp [takeFirst, hx', hr] at h
      | some y =>
        obtain ⟨e', rest'⟩ := y
        obtain ⟨rfl, rfl⟩ : e' = e ∧ x :: rest' = rest := by simpa [takeFirst, hx', hr] using h
        obtain ⟨hok, before, after, h1, h2, h3⟩ := ih e' rest' hr
        refine ⟨hok, x :: before, after, by rw [h1]; rfl, by rw [h2]; rfl, ?_⟩
        intro z hz
        rcases List.mem_cons.mp hz with rfl | hz
        · exact hx'
        · exact h3 z hz

/-- No event is chosen exactly when none can take place. -/
theorem takeFirst_none (ok : PortEvent → Bool) (es : List PortEvent) :
    takeFirst ok es = none ↔ ∀ x ∈ es, ok x = false := by
  induction es with
  | nil => simp [takeFirst]
  | cons x xs ih => cases h : ok x <;> simp [takeFirst, h, ih]

/-- What survives a reset is some of the writes in flight, each whole and in its order (R231, log 5). -/
theorem survivingWrites_sublist (n : Nat) (fs : List InFlight) :
    (survivingWrites n fs).Sublist (inFlightWrites fs) := by
  induction fs generalizing n with
  | nil => simp [survivingWrites]
  | cons f fs ih =>
    have h : inFlightWrites (f :: fs) = f.write.toList ++ inFlightWrites fs := by
      cases hf : f.write <;> simp [inFlightWrites, hf]
    rw [h, survivingWrites]
    refine List.Sublist.append ?_ (ih _)
    split <;> simp

/-- Every command answers a next state. -/
theorem exec_next (i : Instr) (s : State) : ∃ t, exec i s = .next t := by
  cases i <;> exact ⟨_, rfl⟩

/-- Everything a step can do: hold its state, execute a legal command, answer an illegal beat, deliver a response, or
reset. -/
theorem step_cases (s t : State) (h : step s = .next t) :
    (s.nextEvent = none ∧ t = s) ∨
    (∃ b rest i, s.nextEvent = some (.command b, rest) ∧ decode b = .ok i ∧ exec i { s with port := rest } = .next t) ∨
    (∃ b rest k, s.nextEvent = some (.command b, rest) ∧ decode b = .error k ∧
      t = raiseIllegal (fieldOpcode b) k { s with port := rest }) ∨
    (∃ rest, s.nextEvent = some (.takeResponse, rest) ∧ t = ({ s with port := rest } : State).deliver) ∨
    (∃ rest, s.nextEvent = some (.reset, rest) ∧ t = ({ s with port := rest } : State).resetBlock) := by
  unfold step stepPort at h
  cases hn : s.nextEvent with
  | none =>
    rw [hn] at h
    exact .inl ⟨rfl, (Host.Outcome.next.inj h).symm⟩
  | some x =>
    obtain ⟨e, rest⟩ := x
    rw [hn] at h
    cases e with
    | command b =>
      cases hd : decode b with
      | ok i => exact .inr (.inl ⟨b, rest, i, rfl, hd, by simpa [performEvent, acceptBeat, hd] using h⟩)
      | error k =>
        exact .inr (.inr (.inl ⟨b, rest, k, rfl, hd, by simpa [performEvent, acceptBeat, hd] using h.symm⟩))
    | takeResponse => exact .inr (.inr (.inr (.inl ⟨rest, rfl, (Host.Outcome.next.inj h).symm⟩)))
    | reset => exact .inr (.inr (.inr (.inr ⟨rest, rfl, (Host.Outcome.next.inj h).symm⟩)))

end Sys2Proof.Machine
end

