-- ==== Sys2Proof/Laws/PerInstr.lean ====
section
/-!
SUPPORT. Statements for all commands, one lemma a constructor. `EncodesLegal`: the beat of a command holds its
`OPCODE` and has every must-be-zero bit of its format clear (spec/30_encoding.md R73, R76).
-/

namespace Sys2Proof.Laws.EncodesLegal

/-- The beat of `i` holds `i`'s `OPCODE`, and no must-be-zero bit of its format is set. -/
def Statement (i : Instr) : Prop :=
  fieldOpcode (encode i) = opcodeByte (instrOpcode i) ∧ encode i &&& mbzMask (formatOf (instrOpcode i)) = 0#256

/-- The mask of format `R` by field (R73). -/
theorem mask_r : mbzMask .r =
    (BitVec.allOnes 64 ++ BitVec.allOnes 64 ++ 0#32 ++ 0#32 ++ 0#32 ++ BitVec.allOnes 14 ++ BitVec.allOnes 4 ++
      BitVec.allOnes 6 ++ 0#8).cast (by decide) := by decide

/-- A format `R` beat is legal. -/
theorem ring (o : Opcode) (w1 w2 w3 : Word32) :
    fieldOpcode (assembleRing o w1 w2 w3) = opcodeByte o ∧ assembleRing o w1 w2 w3 &&& mbzMask .r = 0#256 := by
  refine ⟨by simp [assembleRing], ?_⟩
  rw [mask_r, assembleRing, assembleBeat_and]
  simp only [BitVec.and_zero, BitVec.zero_and]
  decide

theorem nop : Statement .nop := by
  unfold Statement
  decide

theorem ringProduceRange (p c k : Word32) : Statement (.ringProduceRange p c k) := ring _ p c k
theorem ringConsumeRange (p c k : Word32) : Statement (.ringConsumeRange p c k) := ring _ p c k
theorem ringAdvance (i b k : Word32) : Statement (.ringAdvance i b k) := ring _ i b k
theorem ringOccupied (p c k : Word32) : Statement (.ringOccupied p c k) := ring _ p c k
theorem ringFree (p c k : Word32) : Statement (.ringFree p c k) := ring _ p c k
theorem ringCtgOccupied (p c k : Word32) : Statement (.ringCtgOccupied p c k) := ring _ p c k
theorem ringCtgFree (p c k : Word32) : Statement (.ringCtgFree p c k) := ring _ p c k
theorem ringValid (p c k : Word32) : Statement (.ringValid p c k) := ring _ p c k

theorem coStart (c : CtxNum) (m : Word32) (off len : Word64) (ps : PageShift) : Statement (.coStart c m off len ps) := by
  have hm : mbzMask .s = (0#64 ++ 0#64 ++ BitVec.allOnes 32 ++ BitVec.allOnes 32 ++ 0#32 ++ BitVec.allOnes 14 ++ 0#4 ++
      0#6 ++ 0#8).cast (by decide) := by decide
  refine ⟨by simp [encode, instrOpcode], ?_⟩
  show encode _ &&& mbzMask .s = 0#256
  rw [hm, encode, assembleBeat_and]
  simp only [BitVec.and_zero, BitVec.zero_and]
  decide

theorem coSeg (c : CtxNum) (a : Word64) (l : Word32) : Statement (.coSeg c a l) := by
  have hm : mbzMask .g = (BitVec.allOnes 64 ++ 0#64 ++ BitVec.allOnes 32 ++ BitVec.allOnes 32 ++ 0#32 ++
      BitVec.allOnes 14 ++ 0#4 ++ BitVec.allOnes 6 ++ 0#8).cast (by decide) := by decide
  refine ⟨by simp [encode, instrOpcode], ?_⟩
  show encode _ &&& mbzMask .g = 0#256
  rw [hm, encode, assembleBeat_and]
  simp only [BitVec.and_zero, BitVec.zero_and]
  decide

theorem coEnd (c : CtxNum) : Statement (.coEnd c) := by
  have hm : mbzMask .e = (BitVec.allOnes 64 ++ BitVec.allOnes 64 ++ BitVec.allOnes 32 ++ BitVec.allOnes 32 ++
      BitVec.allOnes 32 ++ BitVec.allOnes 14 ++ 0#4 ++ BitVec.allOnes 6 ++ 0#8).cast (by decide) := by decide
  refine ⟨by simp [encode, instrOpcode], ?_⟩
  show encode _ &&& mbzMask .e = 0#256
  rw [hm, encode, assembleBeat_and]
  simp only [BitVec.and_zero, BitVec.zero_and]
  decide

end Sys2Proof.Laws.EncodesLegal
end

