-- ==== Sys2Proof/Laws/Ring.lean ====
section
/-!
SUPPORT. The small lemmas of operands, of their reduction to 32 bits, and of the ring ranges field by field
(spec/40_ring_indexer.md R100 to R103, R114).
-/

namespace Sys2Proof.Machine

theorem exact_lt {n : Nat} (a b : BitVec n) : exact a < exact b ↔ a.toNat < b.toNat := by simp [exact]
theorem exact_inj {n : Nat} (a b : BitVec n) : exact a = exact b ↔ a = b := by simp [exact, BitVec.toNat_inj]

/-- An operand is not changed by the reduction to its own width. -/
@[simp] theorem trunc32_exact (v : Word32) : trunc32 (exact v) = v := by simp [trunc32, exact]

/-- The reduction goes through sums: reducing once, at the end, gives what 32-bit addition gives (R114). -/
theorem trunc32_add (a b : Int) : trunc32 (a + b) = trunc32 a + trunc32 b := by
  simp only [trunc32, BitVec.ofInt_add]

/-- The reduction goes through differences. -/
theorem trunc32_sub (a b : Int) : trunc32 (a - b) = trunc32 a - trunc32 b := by
  simp only [trunc32, sub_eq_add_neg, BitVec.ofInt_add, BitVec.ofInt_neg]

/-- A value of 32 bits is not changed by the reduction (R115). -/
theorem exact_trunc32 (v : Int) (h0 : 0 ≤ v) (h : v < 2 ^ 32) : exact (trunc32 v) = v := by
  simp only [exact, trunc32, BitVec.toNat_ofInt]
  rw [Int.toNat_of_nonneg (Int.emod_nonneg _ (by decide))]
  exact Int.emod_eq_of_lt h0 h

/-- A value of 64 bits is not changed by the reduction. -/
theorem exact_trunc64 (v : Int) (h0 : 0 ≤ v) (h : v < 2 ^ 64) : exact (trunc64 v) = v := by
  simp only [exact, trunc64, BitVec.toNat_ofInt]
  rw [Int.toNat_of_nonneg (Int.emod_nonneg _ (by decide))]
  exact Int.emod_eq_of_lt h0 h

section
variable (p c k : Int)

theorem produceRange_base : (produceRange p c k).base = if p < k then 0 else k := by unfold produceRange; split <;> rfl
theorem produceRange_start : (produceRange p c k).start = if p < k then p else p - k := by
  unfold produceRange; split <;> rfl
theorem produceRange_stop :
    (produceRange p c k).stop = if p < k then (if c < k then k else c - k) else if c < k then c else k := by
  unfold produceRange; split <;> rfl
theorem consumeRange_base : (consumeRange p c k).base = if c < k then 0 else k := by unfold consumeRange; split <;> rfl
theorem consumeRange_start : (consumeRange p c k).start = if c < k then c else c - k := by
  unfold consumeRange; split <;> rfl
theorem consumeRange_stop :
    (consumeRange p c k).stop = if c < k then (if p < k then p else k) else if p < k then k else p - k := by
  unfold consumeRange; split <;> rfl
end

/-- The ring-valid flag on counters is the occupancy invariant on numbers (R100, R105). -/
theorem ringValid_iff (p c k : Nat) : ringValid p c k = true ↔ ValidRing p c k := by
  unfold ringValid ValidRing occ unwrap doubled unwrapped
  simp only [decide_eq_true_eq]
  split_ifs <;> omega

/-- A command that only responds has that response as its answer. -/
theorem answer_of_respond (i : Instr) (s : State) (r : Response) (h : exec i s = .next (s.respond r none)) :
    answer i s = some r := by
  simp [answer, h]

end Sys2Proof.Machine
end

