-- ==== Sys2Proof/Tests/Slice0.lean ====
section
/-!
SUPPORT. The author's own tests and the witnesses of the statements' hypotheses. Beats, responses and entries are those
of spec/95_test_vectors.md (the row is named at each test) or are written out from the formats of spec/30_encoding.md.
-/

namespace Sys2Proof.Tests

open Sys2Proof.Machine

/-! ### Helpers -/

/-- The state after a beat is accepted. -/
def after (b : Beat) (s : State) : State :=
  match acceptBeat b s with
  | .next t => t
  | .fault _ => s
  | .refused _ => s

/-- The response beat to a beat. -/
def reply (b : Beat) (s : State) : Option RspBeat := (after b s).rspBuf.getLast?.map fun f => responseBeat f.rsp

/-- The `OutWrite` a beat performs. -/
def writes (b : Beat) (s : State) : Option OutWrite := (after b s).rspBuf.getLast?.bind fun f => f.write

/-- Registers of an open transaction of vector CO1: offset 100, length 8000, page shift 12. -/
def regs (maxOut : Word32) (v : Bool) (a l : Word64) (k : Word32) : CoRegs :=
  { coBusy := true, cfgWoff := 100#64, cfgWlen := 8000#64, cfgMaxout := maxOut, cfgPshift := 12#6, accV := v,
    accAddr := a, accLen := l, accCarry := false, coCount := k, coUndef := false }

/-- Reset, with context 0 holding `r`. -/
def withCo (r : CoRegs) : State := State.reset.setContext 0#4 r

/-- Reset with a list of port events. -/
def withPort (es : List PortEvent) : State := { State.reset with port := es }

/-! ### Well-formedness: one ill-formed term for each check (30_encoding.md R77, cause 3; `CO_CONTEXTS` is 2) -/

theorem test_wf_refuses_coStart_ctx2 : WellFormed Config.resetParams (.coStart 2#4 0#32 0#64 1#64 12#6) = false := by
  decide
theorem test_wf_refuses_coSeg_ctx2 : WellFormed Config.resetParams (.coSeg 2#4 0#64 0#32) = false := by decide
theorem test_wf_refuses_coEnd_ctx15 : WellFormed Config.resetParams (.coEnd 15#4) = false := by decide
theorem test_wf_accepts_coEnd_ctx1 : WellFormed Config.resetParams (.coEnd 1#4) = true := by decide
theorem test_wf_accepts_nop : WellFormed Config.resetParams .nop = true := by decide

/-! ### Decoding: one written-out beat for each constructor -/

theorem test_decode_nop : decode 0x0#256 = .ok .nop := by decide
/-- V7. -/
theorem test_decode_ringProduceRange :
    decode 0x0000000000000000000000000000000000000004000000060000000100000001#256 = .ok (.ringProduceRange 1#32 6#32 4#32) := by
  decide
/-- V14. -/
theorem test_decode_ringConsumeRange :
    decode 0x0000000000000000000000000000000000000004000000060000000700000002#256 = .ok (.ringConsumeRange 7#32 6#32 4#32) := by
  decide
/-- V21. -/
theorem test_decode_ringAdvance :
    decode 0x0000000000000000000000000000000080000000800000007fffffff00000003#256 =
      .ok (.ringAdvance 0x7fffffff#32 0x80000000#32 0x80000000#32) := by decide
/-- V29. -/
theorem test_decode_ringOccupied :
    decode 0x0000000000000000000000000000000000000001000000050000000000000004#256 = .ok (.ringOccupied 0#32 5#32 1#32) := by
  decide
/-- V32. -/
theorem test_decode_ringFree :
    decode 0x0000000000000000000000000000000000000004000000060000000100000005#256 = .ok (.ringFree 1#32 6#32 4#32) := by
  decide
/-- V35. -/
theorem test_decode_ringCtgOccupied :
    decode 0x0000000000000000000000000000000000000004000000020000000500000006#256 = .ok (.ringCtgOccupied 5#32 2#32 4#32) := by
  decide
/-- V45. -/
theorem test_decode_ringCtgFree :
    decode 0x0000000000000000000000000000000000000004000000040000000100000007#256 = .ok (.ringCtgFree 1#32 4#32 4#32) := by
  decide
/-- V56. -/
theorem test_decode_ringValid :
    decode 0x00000000000000000000000000000000ffffffff00000000ffffffff00000008#256 =
      .ok (.ringValid 0xffffffff#32 0#32 0xffffffff#32) := by decide
/-- Program P4, command 2. -/
theorem test_decode_coStart :
    decode 0x0000000000001f40000000000000006400000000000000000000000400004c10#256 =
      .ok (.coStart 1#4 4#32 100#64 8000#64 12#6) := by decide
/-- Program P4, command 6. -/
theorem test_decode_coSeg :
    decode 0x000000000000000000000000b000000000000000000000000000100000004011#256 =
      .ok (.coSeg 1#4 0xb0000000#64 4096#32) := by decide
/-- Program P4, command 8. -/
theorem test_decode_coEnd :
    decode 0x0000000000000000000000000000000000000000000000000000000000004012#256 = .ok (.coEnd 1#4) := by decide

/-- Program P3, command 4: a reserved opcode is cause 1. -/
theorem test_decode_reserved : decode 0x30#256 = .error .reservedOpcode := by decide
/-- R78: reserved opcodes stay cause 1 when other bits are set too (R203). -/
theorem test_decode_reserved_before_mbz : decode 0x0fffff09#256 = .error .reservedOpcode := by decide
/-- R79: `NOP` with bit 8 set is cause 2. -/
theorem test_decode_nop_bit8 : decode 0x100#256 = .error .nonzeroMbz := by decide
/-- R79: a RING command with `CTX` 1 (bit 14). -/
theorem test_decode_ring_ctx : decode 0x4005#256 = .error .nonzeroMbz := by decide
/-- R79: a RING command with `D1` 1 (bit 128). -/
theorem test_decode_ring_d1 : decode (4#256 ||| (1#256 <<< 128)) = .error .nonzeroMbz := by decide
/-- R73: `PSHIFT` is must-be-zero in `CO_END`. -/
theorem test_decode_end_pshift : decode 0x0c12#256 = .error .nonzeroMbz := by decide

/-- The table's numbering: `RING_FREE 1, 6, 4`, 256 bits. -/
theorem test_table_word :
    decodeTableWord 256 0x0000000000000000000000000000000000000004000000060000000100000005 =
      some (.ringFree 1#32 6#32 4#32) := by decide

/-! ### One step of each command -/

/-- 42_system.md R190. -/
theorem test_nop : reply 0x0#256 State.reset = some 0x0#128 := by decide
/-- V7. -/
theorem test_produce_one_slot :
    reply 0x0000000000000000000000000000000000000004000000060000000100000001#256 State.reset =
      some 0x00000002000000010000000000001001#128 := by decide
/-- V6: a capacity above `CAP_MAX`. -/
theorem test_produce_large_cap :
    reply 0x00000000000000000000000000000000ffffffff00000000ffffffff00000001#256 State.reset =
      some 0x0000000000000000ffffffff00001001#128 := by decide
/-- V12: the producer wrapped past `2*cap`. -/
theorem test_consume_wrapped :
    reply 0x0000000000000000000000000000000000000004000000060000000100000002#256 State.reset =
      some 0x00000004000000020000000400001002#128 := by decide
/-- V9: empty in the upper half. -/
theorem test_consume_empty :
    reply 0x0000000000000000000000000000000000000004000000050000000500000002#256 State.reset =
      some 0x00000001000000010000000400001002#128 := by decide
/-- V16: the wrap from `2*cap` to 0. -/
theorem test_advance_wraps :
    reply 0x0000000000000000000000000000000000000004000000040000000400000003#256 State.reset =
      some 0x00000000000000000000000000001003#128 := by decide
/-- V22: a counter of 2^32 or more is reduced and flagged. -/
theorem test_advance_reduced :
    reply 0x00000000000000000000000000000000fffffffffffffffffffffffe00000003#256 State.reset =
      some 0x0000000000000000fffffffd00000003#128 := by decide
/-- V26. -/
theorem test_occupied_wrapped :
    reply 0x0000000000000000000000000000000000000004000000060000000100000004#256 State.reset =
      some 0x00000000000000000000000300001004#128 := by decide
/-- V29: a negative exact value. -/
theorem test_occupied_negative :
    reply 0x0000000000000000000000000000000000000001000000050000000000000004#256 State.reset =
      some 0x0000000000000000fffffffd00000004#128 := by decide
/-- V32. -/
theorem test_free_wrapped :
    reply 0x0000000000000000000000000000000000000004000000060000000100000005#256 State.reset =
      some 0x00000000000000000000000100001005#128 := by decide
/-- V33: a negative exact value. -/
theorem test_free_negative :
    reply 0x0000000000000000000000000000000000000004000000010000000000000005#256 State.reset =
      some 0x0000000000000000fffffffd00000005#128 := by decide
/-- V35: the run crosses the physical end. -/
theorem test_ctgocc_crossing :
    reply 0x0000000000000000000000000000000000000004000000020000000500000006#256 State.reset =
      some 0x00000000000000000000000200001006#128 := by decide
/-- V40: a negative exact value. -/
theorem test_ctgocc_negative :
    reply 0x0000000000000000000000000000000000000004000000010000000000000006#256 State.reset =
      some 0x0000000000000000ffffffff00000006#128 := by decide
/-- V42. -/
theorem test_ctgfree_upper_half :
    reply 0x0000000000000000000000000000000000000004000000050000000500000007#256 State.reset =
      some 0x00000000000000000000000300001007#128 := by decide
/-- V45: a negative exact value. -/
theorem test_ctgfree_negative :
    reply 0x0000000000000000000000000000000000000004000000040000000100000007#256 State.reset =
      some 0x0000000000000000ffffffff00000007#128 := by decide
/-- V51: full in the other half is valid. -/
theorem test_valid_full :
    reply 0x0000000000000000000000000000000000000004000000040000000000000008#256 State.reset =
      some 0x00000000000000000000000100001008#128 := by decide
/-- V47: a counter equal to `2*cap`. -/
theorem test_valid_out_of_range :
    reply 0x0000000000000000000000000000000000000004000000000000000800000008#256 State.reset =
      some 0x00000000000000000000000000000008#128 := by decide
/-- CO1, command 1. -/
theorem test_coStart :
    reply 0x0000000000001f40000000000000006400000000000000000000000200000c10#256 State.reset = some 0x4010#128 ∧
    (after 0x0000000000001f40000000000000006400000000000000000000000200000c10#256 State.reset).context 0#4 =
      regs 2#32 false 0#64 0#64 0#32 := by decide
/-- CO1, commands 3 and 4: an adjacent segment merges; the next one closes the range, written with the first trim. -/
theorem test_coSeg_merges_and_closes :
    (after 0x0000000000000000000000000000200000000000000000000000100000000011#256
      (withCo (regs 2#32 true 0x1000#64 4096#64 0#32))).context 0#4 = regs 2#32 true 0x1000#64 8192#64 0#32 ∧
    reply 0x0000000000000000000000000000500000000000000000000000100000000011#256
      (withCo (regs 2#32 true 0x1000#64 8192#64 0#32)) = some 0x00000000000000000000000100004011#128 ∧
    writes 0x0000000000000000000000000000500000000000000000000000100000000011#256
      (withCo (regs 2#32 true 0x1000#64 8192#64 0#32)) = some ⟨0#4, 0#32, 0x1064#64, 0x1f9c#64⟩ := by decide
/-- R155, R161: a range that ends at 2^64 is adjacent to no segment, so one at address 0 is counted as a new range. -/
theorem test_coSeg_after_carry :
    reply 0x0000000000000000000000000000000000000000000000000000100000000011#256
      (withCo { regs 0#32 true 0#64 0#64 0#32 with accCarry := true, coUndef := true }) =
        some 0x00000000000000000000000100004011#128 := by decide
/-- CO1, command 5: entry 1 is written with the last trim. -/
theorem test_coEnd :
    reply 0x12#256 (withCo (regs 2#32 true 0x5000#64 4096#64 1#32)) = some 0x00000000000000020000000200000012#128 ∧
    writes 0x12#256 (withCo (regs 2#32 true 0x5000#64 4096#64 1#32)) = some ⟨0#4, 1#32, 0x5000#64, 0xfa4#64⟩ := by
  decide
/-- Program P3, command 8: overflow. -/
theorem test_coEnd_overflow :
    reply 0x12#256 (withCo (regs 2#32 true 0x20000#64 4096#64 2#32)) = some 0x00000000000000020000000300002012#128 ∧
    writes 0x12#256 (withCo (regs 2#32 true 0x20000#64 4096#64 2#32)) = none := by decide

/-! ### Illegal commands (60_exceptions.md R201 to R203) -/

/-- Program P3, command 4. -/
theorem test_illegal_reserved : reply 0x30#256 State.reset = some 0x330#128 := by decide
/-- R202, cause 3: context 2 of 2. -/
theorem test_illegal_context : reply 0x8012#256 State.reset = some 0x712#128 := by decide
/-- R202, cause 4: no open transaction. -/
theorem test_illegal_sequence : reply 0x4012#256 State.reset = some 0x912#128 := by decide
/-- R203: a `CO_SEG` with `W2` set to an idle context is cause 2. -/
theorem test_illegal_lowest_cause : reply (0x11#256 ||| (1#256 <<< 64)) State.reset = some 0x511#128 := by decide

/-! ### Step, ports and reset -/

/-- The next step runs the word placed, as the first command after reset. -/
theorem test_fetch_word :
    step (State.reset.withFetchWord 256 0x0000000000000000000000000000000000000004000000060000000100000005) =
      exec (.ringFree 1#32 6#32 4#32) State.reset := by rfl
/-- Taking the one response of a full buffer delivers it. -/
theorem test_take_response :
    (match step { withPort [.takeResponse] with rspBuf := [⟨{ op := 0x05#8, rv := true, r0 := 1#32 }, none⟩] } with
      | .next t => t.delivered
      | .fault _ => []
      | .refused _ => []) = [0x00000000000000000000000100001005#128] := by decide
/-- 70_reset_and_hazards.md R230. -/
theorem test_reset_idles :
    (match step { withCo (regs 2#32 true 0x1000#64 8192#64 0#32) with port := [.reset] } with
      | .next t => t.context 0#4
      | .fault _ => regs 0#32 true 0#64 0#64 0#32
      | .refused _ => regs 0#32 true 0#64 0#64 0#32) = CoRegs.reset := by decide
/-- 20_memory.md R53: the 16 bytes of an entry at `OUT_BASE + 16*k`. -/
theorem test_entry_bytes :
    applyWrite Config.resetParams [] ⟨0#4, 1#32, 0x1064#64, 0x1f9c#64⟩ =
      [(16, 0x64#8), (17, 0x10#8), (18, 0#8), (19, 0#8), (20, 0#8), (21, 0#8), (22, 0#8), (23, 0#8),
       (24, 0x9c#8), (25, 0x1f#8), (26, 0#8), (27, 0#8), (28, 0#8), (29, 0#8), (30, 0#8), (31, 0#8)] := by decide

/-! ### Text forms (30_encoding.md R83 to R85) -/

/-- The example of R85. -/
theorem test_text_of_beat :
    beatText (encode (.ringProduceRange 0#32 0#32 4#32)) =
      "0x0000000000000000000000000000000000000004000000000000000000000001".toList := by decide
/-- Program P4, command 4. -/
theorem test_assemble_seg :
    assembleBeats "co.seg 1, 0xA0000000, 4096 ; a page".toList =
      .ok [0x000000000000000000000000a000000000000000000000000000100000004011#256] := by decide
/-- Program P2, command 1: the pseudo-instruction `co.count`. -/
theorem test_assemble_count :
    assembleBeats "co.count 0, 0x80, 20096, 12".toList =
      .ok [0x0000000000004e80000000000000008000000000000000000000000000000c10#256] := by decide
/-- R84. -/
theorem test_assemble_coalesce :
    assembleLine "co.coalesce 1, 4, 100, 8000, 12, (0xA0000000, 4096)".toList =
      .ok [.coStart 1#4 4#32 100#64 8000#64 12#6, .coSeg 1#4 0xa0000000#64 4096#32, .coEnd 1#4] := by decide
/-- R83: an operand that does not fit is an error. -/
theorem test_assemble_does_not_fit : assembleLine "co.end 16".toList = .error .doesNotFit := by decide

/-! ### Witnesses: for every statement with hypotheses, a concrete case that meets them, clause by clause -/

/-- One open range `(0x1000, 8192)` in context 0, `max_out` 2. -/
def openState : State := withCo (regs 2#32 true 0x1000#64 8192#64 0#32)
/-- An open transaction with no segment yet. -/
def emptyState : State := withCo (regs 2#32 false 0#64 0#64 0#32)
/-- The list of vector CO1. -/
def co1 : List Segment := [⟨0x1000#64, 4096#32⟩, ⟨0x2000#64, 4096#32⟩, ⟨0x5000#64, 4096#32⟩]
/-- The list of program P2: exactly the pages its window touches. -/
def p2 : List Segment :=
  [⟨0x40000#64, 4096#32⟩, ⟨0x41000#64, 4096#32⟩, ⟨0x43000#64, 4096#32⟩, ⟨0x44000#64, 4096#32⟩, ⟨0x50000#64, 4096#32⟩]
/-- A response with no write. -/
def oneResponse : InFlight := ⟨{ op := 0x05#8, rv := true, r0 := 1#32 }, none⟩
/-- The response of CO1, command 4, with its write. -/
def oneWrite : InFlight :=
  ⟨{ op := 0x11#8, busy := true, r0 := 1#32 }, some ⟨0#4, 0#32, 0x1064#64, 0x1f9c#64⟩⟩
/-- That write in flight. -/
def writingState : State := { openState with rspBuf := [oneWrite] }
/-- A range whose length has reached 2^64: `ACC_LEN` holds 0. -/
def carryState : State :=
  withCo { regs 2#32 true 0#64 0#64 0#32 with accCarry := true, coUndef := true }

theorem witness_EncodeInvertsDecode : decode 0x4012#256 = .ok (.coEnd 1#4) := by decide

theorem witness_NopAnswersZero : fieldOpcode 0x100#256 = 0x00#8 ∧ 0x100#256 ≠ 0#256 := by decide

/-- One valid ring for each row of the tables of R102 and R103, counters at the boundaries 0, `cap - 1`, `cap` and
`2*cap - 1`. -/
theorem witness_ring_rows :
    ValidRing 3 0 4 ∧ (3 < 4 ∧ 0 < 4) ∧ ValidRing 0 7 4 ∧ (0 < 4 ∧ 4 ≤ 7) ∧ ValidRing 4 3 4 ∧ (4 ≤ 4 ∧ 3 < 4) ∧
    ValidRing 7 4 4 ∧ (4 ≤ 7 ∧ 4 ≤ 4) := by
  unfold ValidRing unwrapped
  decide

/-- The rows again on a ring that is not valid. -/
theorem witness_ring_invalid : ¬ ValidRing 1 4 4 ∧ ¬ ValidRing 8 0 4 ∧ ¬ ValidRing 0 0 0 := by
  unfold ValidRing unwrapped
  decide

theorem witness_RingAnswersFromBeatAlone : instrContext (.ringFree 1#32 6#32 4#32) = none ∧ instrContext .nop = none := by
  decide

theorem witness_ValidRingResultsNotTruncated :
    ValidRing (0xffffffff#32).toNat (0#32).toNat (0xffffffff#32).toNat ∧
    advOk (exact 4#32) (exact 4#32) (exact 4#32) = true ∧ advOk (exact 0#32) (exact 0#32) (exact 1#32) = true := by
  unfold ValidRing unwrapped
  decide

/-- The inner range of `RangesNameCounters` at its first and last index. -/
theorem witness_RangesNameCounters :
    ValidRing 5 2 4 ∧ (produceRange 5 2 4).start = 1 ∧ (produceRange 5 2 4).stop = 2 ∧
    (consumeRange 5 2 4).start = 2 ∧ (consumeRange 5 2 4).stop = 4 := by
  unfold ValidRing unwrapped
  decide

theorem witness_ContiguousRunsAreMaximal : ValidRing 5 5 4 ∧ ValidRing 5 2 4 ∧ ValidRing 4 0 4 ∧ ValidRing 0 0 1 := by
  unfold ValidRing unwrapped
  decide

theorem witness_AdvanceIsModularAddition :
    ((1 : Nat) ≤ 4 ∧ ((0 : Nat) = 0 ∨ (0 : Nat) = 4) ∧ (4 : Nat) ≤ 4) ∧
    ((1 : Nat) ≤ 4 ∧ ((4 : Nat) = 0 ∨ (4 : Nat) = 4) ∧ (0 : Nat) ≤ 4) := by decide

theorem witness_RingRoundTrip :
    ValidRing 5 2 4 ∧ (0 : Int) ≤ 1 ∧ 1 ≤ rangeSize (produceRange 5 2 4) ∧ (0 : Int) ≤ 2 ∧
    2 ≤ rangeSize (consumeRange 5 2 4) := by
  unfold ValidRing unwrapped
  decide

theorem witness_ProduceCommitKeepsRing :
    ValidRing (5#32).toNat (5#32).toNat (4#32).toNat ∧ (4#32).toNat ≤ 2 ^ 31 ∧
    ((answer (.ringProduceRange 5#32 5#32 4#32) State.reset).map fun r => decide ((3#32).toNat ≤ (r.r2 - r.r1).toNat)) =
      some true := by
  unfold ValidRing unwrapped
  decide

theorem witness_EmptyAndFullAreDistinct : ValidRing 6 6 4 ∧ ValidRing 0 4 4 := by
  unfold ValidRing unwrapped
  decide

theorem witness_StaleCountersUnderestimate :
    (ValidRing (1#32).toNat (6#32).toNat (4#32).toNat ∧ (3 : Int) ≤ occ (1#32).toNat (6#32).toNat (4#32).toNat ∧
      (1#32).toNat = ((6#32).toNat + 3) % (2 * (4#32).toNat)) ∧
    (ValidRing (7#32).toNat (6#32).toNat (4#32).toNat ∧ (3 : Int) ≤ fre (7#32).toNat (6#32).toNat (4#32).toNat ∧
      (2#32).toNat = ((7#32).toNat + 3) % (2 * (4#32).toNat)) := by
  unfold ValidRing unwrapped
  decide

theorem witness_CoStartOpensTransaction :
    ctxExists State.reset.params 1#4 = true ∧ ctxExists State.reset.params 2#4 = false := by decide

theorem witness_CoSegFirstOpensRange : OpenContext emptyState 0#4 ∧ (emptyState.context 0#4).accV = false := by
  unfold OpenContext
  decide

theorem witness_CoSegAdjacentMerges :
    OpenContext openState 0#4 ∧ (openState.context 0#4).accV = true ∧
    (0x3000#64).toNat = accEnd (openState.context 0#4) := by
  unfold OpenContext
  decide

/-- A segment that is not adjacent, with its entry below `max_out` (and all of the inner hypotheses met), and with
`max_out` reached. -/
theorem witness_CoSegNonAdjacentCloses :
    (OpenContext openState 0#4 ∧ (openState.context 0#4).accV = true ∧
      (0x5000#64).toNat ≠ accEnd (openState.context 0#4) ∧
      (openState.context 0#4).coCount.toNat < (openState.context 0#4).cfgMaxout.toNat ∧
      (openState.context 0#4).coUndef = false ∧ ¬ 2 ^ 64 < (0x5000#64).toNat + (4096#32).toNat ∧
      ¬ (0x5000#64).toNat < accEnd (openState.context 0#4) ∧
      firstTrim (openState.context 0#4) ≤ (openState.context 0#4).accLen.toNat ∧
      (openState.context 0#4).accAddr.toNat + firstTrim (openState.context 0#4) < 2 ^ 64) ∧
    ((withCo (regs 2#32 true 0x1000#64 8192#64 2#32)).context 0#4).cfgMaxout.toNat ≤
      ((withCo (regs 2#32 true 0x1000#64 8192#64 2#32)).context 0#4).coCount.toNat := by
  unfold OpenContext
  decide

theorem witness_CoEndOfEmptyList : OpenContext emptyState 0#4 ∧ (emptyState.context 0#4).accV = false := by
  unfold OpenContext
  decide

/-- The last range with both trims, all of the inner hypotheses met, and with `max_out` reached. -/
theorem witness_CoEndClosesLastRange :
    (OpenContext openState 0#4 ∧ (openState.context 0#4).accV = true ∧
      (openState.context 0#4).coCount.toNat < (openState.context 0#4).cfgMaxout.toNat ∧
      (openState.context 0#4).coUndef = false ∧
      firstTrim (openState.context 0#4) + tail 100#64 8000#64 12#6 ≤ (openState.context 0#4).accLen.toNat ∧
      (openState.context 0#4).accAddr.toNat + firstTrim (openState.context 0#4) < 2 ^ 64) ∧
    ((withCo (regs 2#32 true 0x1000#64 8192#64 2#32)).context 0#4).cfgMaxout.toNat ≤
      ((withCo (regs 2#32 true 0x1000#64 8192#64 2#32)).context 0#4).coCount.toNat := by
  unfold OpenContext
  decide

/-- An open range, and one whose length has reached 2^64. -/
theorem witness_OpenRangeEndsAtLastSegment : OpenContext openState 0#4 ∧ OpenContext carryState 0#4 := by
  unfold OpenContext
  decide

theorem witness_UndefinedMarkIsSticky :
    ((withCo { regs 2#32 true 0#64 0#64 0#32 with coUndef := true }).context 0#4).coUndef = true := by decide

/-- `WritesAreInOrderBelowMaxOut` is about a write that happens. -/
theorem witness_WritesAreInOrderBelowMaxOut :
    (writes 0x12#256 (withCo (regs 2#32 true 0x5000#64 4096#64 1#32))).isSome = true := by decide

/-- The first and the last byte of each half of an entry, and the bytes just outside it. -/
theorem witness_OutEntryIsLittleEndian :
    (0 < 8 ∧ 7 < 8) ∧ (15 < Config.resetParams.outBaseOf 0#4 + 16 * (1#32).toNat) ∧
    (Config.resetParams.outBaseOf 0#4 + 16 * (1#32).toNat + 16 ≤ 32) := by decide

/-- A beat next at the port of a block just out of reset. -/
def Offered (b : Beat) : Prop := (withPort [.command b]).nextEvent = some (.command b, [])

/-- One beat for each of the four causes, next at the port. -/
theorem witness_IllegalBeatsAnswerLowestCause :
    (Offered 0x09#256 ∧ opcodeOf (fieldOpcode 0x09#256) = none) ∧
    (Offered 0x0c12#256 ∧ opcodeOf (fieldOpcode 0x0c12#256) = some .coEnd ∧
      0x0c12#256 &&& mbzMask (formatOf .coEnd) ≠ 0#256) ∧
    (Offered 0x8010#256 ∧ opcodeOf (fieldOpcode 0x8010#256) = some .coStart ∧
      0x8010#256 &&& mbzMask (formatOf .coStart) = 0#256 ∧
      State.reset.params.coContexts ≤ (fieldCtx 0x8010#256).toNat) ∧
    (Offered 0x4011#256 ∧ opcodeOf (fieldOpcode 0x4011#256) = some .coSeg ∧
      0x4011#256 &&& mbzMask (formatOf .coSeg) = 0#256 ∧ (fieldCtx 0x4011#256).toNat < State.reset.params.coContexts ∧
      (State.reset.context (fieldCtx 0x4011#256)).coBusy = false) := by
  unfold Offered
  decide

theorem witness_MisdirectedCoalescerCommands :
    ctxExists State.reset.params 2#4 = false ∧ ctxExists State.reset.params 1#4 = true ∧
    (State.reset.context 1#4).coBusy = false := by decide

theorem witness_LegalCommandsAnswerLegally :
    WellFormed openState.params (.coSeg 0#4 0x5000#64 4096#32) = true ∧ (openState.context 0#4).coBusy = true := by
  decide

theorem witness_StepRunsDecodedCommand :
    (withPort [.takeResponse, .command 0x4012#256, .reset]).nextEvent =
      some (.command 0x4012#256, [.takeResponse, .reset]) ∧
    decode 0x4012#256 = .ok (.coEnd 1#4) ∧ State.reset.hasRoom = true := by decide

theorem witness_ResponsesLeaveInOrder :
    (match (withPort [.command 0x0#256]).nextEvent with
      | some (.command _, _) => true
      | _ => false) = true := by decide

theorem witness_TakingResponseDeliversOldest :
    ({ withPort [.takeResponse] with rspBuf := [oneResponse] } : State).nextEvent = some (.takeResponse, []) := by
  decide

/-- A buffer of depth 1 that is full, and a command at the port. -/
def fullState : State :=
  { State.reset with
    params := { Config.resetParams with rspDepthLess1 := 0 }
    rspBuf := [oneResponse]
    port := [.command 0x0#256] }

theorem witness_FullBufferAcceptsNothing :
    fullState.params.rspDepth ≤ fullState.rspBuf.length ∧ ∀ e ∈ fullState.port, ∃ b, e = .command b :=
  ⟨by decide, fun _ h => ⟨0x0#256, List.mem_singleton.mp h⟩⟩

/-- The entry next to the one whose write is in flight, its bytes beginning where the other's end. -/
theorem witness_DeliveredWritesAreVisible :
    writingState.observable false 0#4 1#32 ≠ [] ∧
    (∀ w ∈ inFlightWrites writingState.rspBuf, ¬ (w.ctx = 0#4 ∧ w.index = 1#32)) ∧
    (∀ w ∈ inFlightWrites writingState.rspBuf,
      entryAddr writingState.params w.ctx w.index + 16 ≤ entryAddr writingState.params 0#4 1#32 ∨
      entryAddr writingState.params 0#4 1#32 + 16 ≤ entryAddr writingState.params w.ctx w.index) := by decide

/-- Reset next: behind a command that waits at a full buffer, with a write in flight, and with no command in flight. -/
theorem witness_ResetKeepsDeliveredOutput :
    ({ fullState with port := [.command 0x0#256, .reset] } : State).nextEvent = some (.reset, [.command 0x0#256]) ∧
    (({ writingState with port := [.reset] } : State).nextEvent = some (.reset, []) ∧
      inFlightWrites ({ writingState with port := [.reset] } : State).rspBuf ≠ []) ∧
    (withPort [.reset]).nextEvent = some (.reset, []) ∧ (withPort [.reset]).rspBuf = [] := by decide

/-- An open transaction with a response in the buffer meets the invariant, and its next step is a command. -/
theorem witness_StepKeepsInvariant :
    State.Inv { openState with rspBuf := [oneResponse] } ∧
    (match step ({ openState with rspBuf := [oneResponse], port := [.command 0x12#256] }) with
      | .next _ => true
      | .fault _ => false
      | .refused _ => false) = true := by
  refine ⟨⟨by decide, ?_, by decide, by decide +kernel, ?_⟩, by decide +kernel⟩
  · unfold CoRegs.Good accEnd
    decide
  · intro f hf
    rw [List.mem_singleton.mp hf]
    unfold InFlight.Good
    decide

theorem witness_OnlyNamedContextChanges :
    instrContext (.coEnd 1#4) ≠ some 0#4 ∧ instrContext .nop ≠ some 0#4 := by decide

/-- A mixed list whose context-0 commands draw no free value. -/
theorem witness_ContextsDoNotInterfere :
    (match execAll (commandsOf 0#4 [.coStart 0#4 1#32 0#64 1#64 0#6, .coEnd 1#4, .coEnd 0#4]) State.reset with
      | .next u => decide (u.draws = State.reset.draws)
      | .fault _ => false
      | .refused _ => false) = true := by decide

theorem witness_TransactionIsCoalesce :
    ctxExists State.reset.params 0#4 = true ∧ undefinedInput co1 100#64 8000#64 (2#32).toNat 12#6 = false ∧
    coalesceTotal co1 < 2 ^ 32 := by decide

/-- An empty window, condition U1. -/
theorem witness_UndefinedInputKeepsCountAndIndices :
    ctxExists State.reset.params 0#4 = true ∧ coalesceTotal co1 < 2 ^ 32 ∧
    undefinedInput co1 100#64 0#64 (2#32).toNat 12#6 = true := by decide

theorem witness_CountingPassWritesNothing :
    ctxExists State.reset.params 0#4 = true ∧ coalesceTotal co1 < 2 ^ 32 := by decide

/-- `max_out` 1 and 0 with two ranges. -/
theorem witness_OverflowTrimsOnlyFirst :
    (ctxExists State.reset.params 0#4 = true ∧ (1#32).toNat < coalesceTotal co1 ∧ coalesceTotal co1 < 2 ^ 32 ∧
      undefinedInput co1 100#64 8000#64 (1#32).toNat 12#6 = false ∧ 0 < (1#32).toNat ∧
      (walk co1)[0]? = some ⟨0x1000, 8192⟩) ∧
    (0#32).toNat < coalesceTotal co1 := by decide

theorem witness_WalkIsMinimal : (∀ g ∈ co1, 0 < g.len.toNat) ∧ (walk co1)[0]? = some ⟨0x1000, 8192⟩ ∧
    (walk co1)[1]? = some ⟨0x5000, 4096⟩ := by decide

theorem witness_TransactionCoversWindow :
    ctxExists State.reset.params 0#4 = true ∧ undefU3 p2 = false ∧ (0x80#64).toNat < pageSize 12#6 ∧
    1 ≤ (20096#64).toNat ∧ undefU2 p2 = false ∧ (∀ g ∈ p2, 0 < g.len.toNat ∧ g.len.toNat % pageSize 12#6 = 0) ∧
    (p2.map fun g => g.len.toNat).sum =
      pageSize 12#6 * (((0x80#64).toNat + (20096#64).toNat + pageSize 12#6 - 1) / pageSize 12#6) ∧
    coalesceTotal p2 ≤ (3#32).toNat := by decide

end Sys2Proof.Tests
end

/-!
PROOFS of the statements of spec/10_state.md: O19, O36, O37, O47, O52, O53. First what one command can do, from which
all but O47 follow; then the statements about one command; then the invariant.
-/

/-! ### What one command can do -/

namespace Sys2Proof.Machine

/-- A command that names no context answers one legal response, the same in every state (10_state.md R21). -/
theorem exec_of_no_context (i : Instr) (h : instrContext i = none) :
    ∃ r, (∀ s, exec i s = .next (s.respond r none)) ∧ r.ill = false ∧ r.ilc = 0#3 := by
  cases i with
  | coStart c m off wlen ps => cases h
  | coSeg c a l => cases h
  | coEnd c => cases h
  | _ => exact ⟨_, fun _ => rfl, rfl, rfl⟩

/-- The effect of a legal coalescer command in state `s`: the context it names, what it leaves there and its response
(41_segment_coalescer.md R156, R157, R159). `exec_cases` ties it to `exec`. -/
inductive CoEffect (s : State) : Instr → CtxNum → CoResult → Response → Prop
  | start (c : CtxNum) (m : Word32) (off wlen : Word64) (ps : PageShift) (hc : ctxExists s.params c = true) :
      CoEffect s (.coStart c m off wlen ps) c ⟨startRegs m off wlen ps, none, s.draws⟩ startResponse
  | seg (c : CtxNum) (a : Word64) (l : Word32) (hc : ctxExists s.params c = true) (hb : (s.context c).coBusy = true) :
      CoEffect s (.coSeg c a l) c (acceptSegment c a l (s.context c) s.draws)
        (segResponse (acceptSegment c a l (s.context c) s.draws).regs)
  | finish (c : CtxNum) (hc : ctxExists s.params c = true) (hb : (s.context c).coBusy = true) :
      CoEffect s (.coEnd c) c { finishList c (s.context c) s.draws with regs := CoRegs.reset }
        (endResponse (finishList c (s.context c) s.draws).regs)

/-- Everything one command can do: answer alone (no context named), be illegal, or take effect in the one context that
it names (30_encoding.md R77). -/
theorem exec_cases (i : Instr) (s t : State) (h : exec i s = .next t) :
    (∃ r, r.ill = false ∧ r.ilc = 0#3 ∧ t = s.respond r none) ∨
    (∃ op k, t = raiseIllegal op k s) ∨
    (∃ c x r, CoEffect s i c x r ∧ t = s.complete c x r) := by
  cases hi : instrContext i with
  | none =>
    obtain ⟨r, hexec, hill, hilc⟩ := exec_of_no_context i hi
    exact .inl ⟨r, hill, hilc, Host.Outcome.next.inj (h.symm.trans (hexec s))⟩
  | some d =>
    right
    cases i with
    | coStart c m off wlen ps =>
      obtain rfl := Host.Outcome.next.inj h
      rcases withContext_cases .coStart c s _ with ⟨hc, e⟩ | ⟨_, e⟩
      · exact .inr ⟨_, _, _, .start c m off wlen ps hc, e⟩
      · exact .inl ⟨_, _, e⟩
    | coSeg c a l =>
      obtain rfl := Host.Outcome.next.inj h
      rcases withOpenContext_cases .coSeg c s _ with ⟨hc, hb, e⟩ | ⟨_, _, e⟩ | ⟨_, e⟩
      · exact .inr ⟨_, _, _, .seg c a l hc hb, e⟩
      · exact .inl ⟨_, _, e⟩
      · exact .inl ⟨_, _, e⟩
    | coEnd c =>
      obtain rfl := Host.Outcome.next.inj h
      rcases withOpenContext_cases .coEnd c s _ with ⟨hc, hb, e⟩ | ⟨_, _, e⟩ | ⟨_, e⟩
      · exact .inr ⟨_, _, _, .finish c hc hb, e⟩
      · exact .inl ⟨_, _, e⟩
      · exact .inl ⟨_, _, e⟩
    | _ => cases hi

section
variable {s : State} {i : Instr} {c : CtxNum} {x : CoResult} {r : Response}

theorem CoEffect.names_context (h : CoEffect s i c x r) : instrContext i = some c := by
  cases h <;> rfl

theorem CoEffect.context_exists (h : CoEffect s i c x r) : ctxExists s.params c = true := by
  cases h <;> assumption

theorem CoEffect.response_legal (h : CoEffect s i c x r) : r.ill = false ∧ r.ilc = 0#3 := by
  cases h <;> exact ⟨rfl, rfl⟩

end

/-- A `CO_SEG` to a context with an open transaction is legal and takes effect (R77, R157). -/
theorem exec_coSeg_of_open (c : CtxNum) (a : Word64) (l : Word32) (s : State) (h : OpenContext s c) :
    exec (.coSeg c a l) s = .next (s.complete c (acceptSegment c a l (s.context c) s.draws)
      (segResponse (acceptSegment c a l (s.context c) s.draws).regs)) := by
  obtain ⟨hc, hb⟩ := h
  simp [exec, execCoSeg, withOpenContext, withContext, hc, hb]

/-! ### The registers a segment leaves (41_segment_coalescer.md R157) -/

section
variable (c : CtxNum) (a : Word64) (l : Word32) (r : CoRegs) (n : Nat)

/-- The registers a segment leaves: it is the open range, after any count and with any further mark, or the range
that was open grows, with the mark of U3 where the length reaches 2^64. Either way U2 is marked where it holds. -/
theorem acceptSegment_regs_cases :
    (∃ u k, (acceptSegment c a l r n).regs =
      ({ (r.markUndef (decide (2 ^ 64 < a.toNat + l.toNat))).markUndef u with coCount := k } : CoRegs).openRange a l) ∨
    (r.accV = true ∧ ∃ len, (acceptSegment c a l r n).regs =
      ((r.markUndef (decide (2 ^ 64 < a.toNat + l.toNat))).markUndef (decide (2 ^ 64 ≤ len))).withLength len) := by
  cases hv : r.accV with
  | false =>
    refine .inl ⟨false, r.coCount, ?_⟩
    rw [acceptSegment_first c a l r n hv]
    simp [CoRegs.markUndef]
  | true =>
    by_cases ha : a.toNat = accEnd r
    · exact .inr ⟨rfl, _, by rw [acceptSegment_merge c a l r n hv ha]⟩
    · exact .inl ⟨_, _, by rw [acceptSegment_close c a l r n hv ha]; rfl⟩

@[simp] theorem acceptSegment_accV : (acceptSegment c a l r n).regs.accV = true := by
  rcases acceptSegment_regs_cases c a l r n with ⟨u, k, e⟩ | ⟨hv, len, e⟩ <;> rw [e]
  · rfl
  · exact hv

@[simp] theorem acceptSegment_coBusy : (acceptSegment c a l r n).regs.coBusy = r.coBusy := by
  rcases acceptSegment_regs_cases c a l r n with ⟨u, k, e⟩ | ⟨_, len, e⟩ <;> rw [e] <;> rfl

@[simp] theorem acceptSegment_cfgWlen : (acceptSegment c a l r n).regs.cfgWlen = r.cfgWlen := by
  rcases acceptSegment_regs_cases c a l r n with ⟨u, k, e⟩ | ⟨_, len, e⟩ <;> rw [e] <;> rfl

/-- No segment clears the mark (10_state.md R27). -/
theorem acceptSegment_coUndef_of_coUndef (h : r.coUndef = true) : (acceptSegment c a l r n).regs.coUndef = true := by
  rcases acceptSegment_regs_cases c a l r n with ⟨u, k, e⟩ | ⟨_, len, e⟩ <;> rw [e] <;> simp [h]

/-- Where a segment leaves no mark, it ends by 2^64 (U2) and the range's length stays below 2^64 (U3). -/
theorem acceptSegment_of_not_coUndef (h : (acceptSegment c a l r n).regs.coUndef = false) :
    a.toNat + l.toNat ≤ 2 ^ 64 ∧ (acceptSegment c a l r n).regs.accCarry = false := by
  rcases acceptSegment_regs_cases c a l r n with ⟨u, k, e⟩ | ⟨_, len, e⟩ <;> rw [e] at h ⊢
  · obtain ⟨⟨_, hend⟩, _⟩ : (r.coUndef = false ∧ a.toNat + l.toNat ≤ 2 ^ 64) ∧ u = false := by simpa using h
    exact ⟨hend, rfl⟩
  · obtain ⟨⟨_, hend⟩, hlen⟩ : (r.coUndef = false ∧ a.toNat + l.toNat ≤ 2 ^ 64) ∧ len < 2 ^ 64 := by simpa using h
    exact ⟨hend, by simpa using hlen⟩

end

/-- With no carry `ACC_LEN` alone holds the length of the open range. -/
theorem accEnd_of_not_accCarry (r : CoRegs) (h : r.accCarry = false) : accEnd r = r.accAddr.toNat + r.accLen.toNat := by
  simp [accEnd, accLength, h]

/-! ### The statements about one command -/

/-- Settles O19: the response of such a command is fixed before the state is. -/
theorem ringAnswersFromBeatAlone : Obligations.RingAnswersFromBeatAlone := by
  intro i s s' hi
  obtain ⟨r, hexec, _⟩ := exec_of_no_context i hi
  exact ⟨r, answer_of_respond i s r (hexec s), answer_of_respond i s' r (hexec s')⟩

/-- Settles O36: the carry that the exact end counts is set only together with the mark (U3). -/
theorem openRangeEndsAtLastSegment : Obligations.OpenRangeEndsAtLastSegment := by
  intro c a l s hopen
  refine ⟨_, exec_coSeg_of_open c a l s hopen, ?_⟩
  rw [State.complete_context_self]
  have hend := acceptSegment_accEnd c a l (s.context c) s.draws
  refine ⟨acceptSegment_accV .., hend, fun hdef => ?_⟩
  obtain ⟨_, hcarry⟩ := acceptSegment_of_not_coUndef c a l (s.context c) s.draws hdef
  rw [← accEnd_of_not_accCarry _ hcarry, hend]

/-- A command leaves the registers of every context it does not name (10_state.md R25). -/
theorem exec_context_of_ne (i : Instr) (s t : State) (d : CtxNum) (hexec : exec i s = .next t)
    (hd : instrContext i ≠ some d) : t.context d = s.context d := by
  rcases exec_cases i s t hexec with ⟨r, _, _, rfl⟩ | ⟨op, k, rfl⟩ | ⟨c, x, r, heff, rfl⟩
  · simp
  · simp
  · have hne : d ≠ c := fun e => hd (e ▸ heff.names_context)
    exact State.complete_context_ne s c x r d hne

/-- Settles O53, for the command runs to a next state in every case. -/
theorem onlyNamedContextChanges : Obligations.OnlyNamedContextChanges := by
  intro i s d hd
  obtain ⟨t, hexec⟩ := exec_next i s
  exact ⟨t, hexec, exec_context_of_ne i s t d hexec hd⟩

/-- Settles O37: the only command with an effect in its context that is neither `CO_START` nor `CO_END` is `CO_SEG`,
and a segment clears no mark. -/
theorem undefinedMarkIsSticky : Obligations.UndefinedMarkIsSticky := by
  intro i c s hmark
  obtain ⟨t, hexec⟩ := exec_next i s
  refine ⟨t, hexec, ?_⟩
  rcases exec_cases i s t hexec with ⟨r, _, _, rfl⟩ | ⟨op, k, rfl⟩ | ⟨d, x, r, heff, rfl⟩
  · exact .inl hmark
  · exact .inl hmark
  · by_cases hd : c = d
    · subst hd
      rw [State.complete_context_self]
      cases heff with
      | start _ m off wlen ps => exact .inr (.inr ⟨m, off, wlen, ps, rfl⟩)
      | seg _ a l => exact .inl (acceptSegment_coUndef_of_coUndef c a l _ _ hmark)
      | finish => exact .inr (.inl rfl)
    · rw [State.complete_context_ne s d x r c hd]
      exact .inl hmark

/-! ### The response buffer (10_state.md R30) -/

/-- A command that a step takes found room in the response buffer. -/
theorem State.hasRoom_of_nextEvent_command (s : State) (b : Beat) (rest : List PortEvent)
    (h : s.nextEvent = some (.command b, rest)) : s.hasRoom = true :=
  (takeFirst_some s.enabled s.port (.command b) rest h).1

theorem State.hasRoom_iff (s : State) : s.hasRoom = true ↔ s.rspBuf.length < s.params.rspDepth := by
  simp [State.hasRoom]

/-- Where no listed event can take place the block holds its state (70_reset_and_hazards.md R245). -/
theorem step_of_none_enabled (s : State) (h : ∀ e ∈ s.port, s.enabled e = false) : step s = .next s := by
  have hnone : s.nextEvent = none := (takeFirst_none s.enabled s.port).mpr h
  simp [step, stepPort, hnone]

/-- Settles O47: a command is enabled only while the buffer has room. -/
theorem fullBufferAcceptsNothing : Obligations.FullBufferAcceptsNothing := by
  intro s hfull
  have hroom : ¬ s.hasRoom = true := by
    rw [State.hasRoom_iff]
    exact not_lt.mpr hfull
  refine ⟨fun b rest h => hroom (s.hasRoom_of_nextEvent_command b rest h), fun hcmd => ?_⟩
  refine step_of_none_enabled s fun e he => ?_
  obtain ⟨b, rfl⟩ := hcmd e he
  exact Bool.eq_false_of_not_eq_true hroom

/-! ### Good registers and good responses -/

theorem CoRegs.reset_good : CoRegs.reset.Good := by
  simp [CoRegs.Good, CoRegs.reset]

/-- `CO_START` leaves good registers: an empty window is marked (U1). -/
theorem startRegs_good (m : Word32) (off wlen : Word64) (ps : PageShift) : (startRegs m off wlen ps).Good := by
  simp [CoRegs.Good, startRegs]

/-- A segment of an open transaction leaves good registers: the open range ends where the segment ends, and what runs
past 2^64 is marked (U2, U3). -/
theorem acceptSegment_good (c : CtxNum) (a : Word64) (l : Word32) (r : CoRegs) (n : Nat) (hgood : r.Good)
    (hbusy : r.coBusy = true) : (acceptSegment c a l r n).regs.Good := by
  obtain ⟨_, _, hwindow, _, _⟩ := hgood
  refine ⟨fun hidle => ?_, fun hv => ?_, fun _ hw => ?_, fun _ hdef => ?_, fun _ => ?_⟩
  · simp [hbusy] at hidle
  · simp at hv
  · rw [acceptSegment_cfgWlen] at hw
    exact acceptSegment_coUndef_of_coUndef c a l r n (hwindow hbusy hw)
  · obtain ⟨hend, hcarry⟩ := acceptSegment_of_not_coUndef c a l r n hdef
    rw [acceptSegment_accEnd]
    exact ⟨hcarry, hend⟩
  · rw [acceptSegment_accEnd]
    have := a.isLt
    have := l.isLt
    omega

/-- A legal coalescer command leaves good registers in its context. -/
theorem CoEffect.regs_good {s : State} {i : Instr} {c : CtxNum} {x : CoResult} {r : Response} (h : CoEffect s i c x r)
    (hgood : (s.context c).Good) : x.regs.Good := by
  cases h with
  | start _ m off wlen ps => exact startRegs_good m off wlen ps
  | seg _ a l _ hbusy => exact acceptSegment_good c a l _ _ hgood hbusy
  | finish => exact CoRegs.reset_good

theorem InFlight.good_of_legal (r : Response) (w : Option OutWrite) (hill : r.ill = false) (hilc : r.ilc = 0#3) :
    InFlight.Good ⟨r, w⟩ := by
  simp [InFlight.Good, hill, hilc]

theorem InFlight.good_of_illegal (op : OpByte) (k : IllegalCause) : InFlight.Good ⟨illegalResponse op k, none⟩ := by
  cases k <;> simp [InFlight.Good, illegalResponse, causeCode]

/-! ### What keeps the invariant -/

section
variable {s : State} (hinv : s.Inv)
include hinv

theorem State.Inv.withPort (es : List PortEvent) : State.Inv { s with port := es } := by
  obtain ⟨hmem, hctx, habsent, hdepth, hrsp⟩ := hinv
  exact ⟨hmem, hctx, habsent, hdepth, hrsp⟩

/-- A context that exists takes good registers. -/
theorem State.Inv.setContext (c : CtxNum) (g : CoRegs) (hc : ctxExists s.params c = true) (hg : g.Good) :
    (s.setContext c g).Inv where
  memory := hinv.memory
  contexts d := by
    by_cases hd : d = c
    · rw [hd, State.setContext_context_self]
      exact hg
    · rw [State.setContext_context_ne s c g d hd]
      exact hinv.contexts d
  absent d habsent := by
    have hd : d ≠ c := by
      rintro rfl
      simp [hc] at habsent
    rw [State.setContext_context_ne s c g d hd]
    exact hinv.absent d habsent
  depth := hinv.depth
  responses := hinv.responses

/-- A buffer with room takes a good response. -/
theorem State.Inv.respond (r : Response) (w : Option OutWrite) (hroom : s.hasRoom = true) (hgood : InFlight.Good ⟨r, w⟩) :
    (s.respond r w).Inv where
  memory := hinv.memory
  contexts := hinv.contexts
  absent := hinv.absent
  depth := by
    have := s.hasRoom_iff.mp hroom
    simp only [State.respond_rspBuf, State.respond_params, List.length_append, List.length_singleton]
    omega
  responses f hf := by
    rw [State.respond_rspBuf, List.mem_append, List.mem_singleton] at hf
    rcases hf with hf | rfl
    · exact hinv.responses f hf
    · exact hgood

theorem State.Inv.complete (c : CtxNum) (x : CoResult) (r : Response) (hroom : s.hasRoom = true)
    (hc : ctxExists s.params c = true) (hregs : x.regs.Good) (hgood : InFlight.Good ⟨r, x.write⟩) :
    (s.complete c x r).Inv := by
  obtain ⟨hmem, hctx, habsent, hdepth, hrsp⟩ := hinv.setContext c x.regs hc hregs
  have hset : State.Inv { s.setContext c x.regs with draws := x.draws } := ⟨hmem, hctx, habsent, hdepth, hrsp⟩
  exact hset.respond r x.write hroom hgood

theorem State.Inv.raiseIllegal (op : OpByte) (k : IllegalCause) (hroom : s.hasRoom = true) :
    (raiseIllegal op k s).Inv :=
  hinv.respond _ _ hroom (InFlight.good_of_illegal op k)

/-- An executed command keeps the invariant, where the buffer has room for its response. -/
theorem State.Inv.exec (i : Instr) (t : State) (hroom : s.hasRoom = true) (hexec : exec i s = .next t) : t.Inv := by
  rcases exec_cases i s t hexec with ⟨r, hill, hilc, rfl⟩ | ⟨op, k, rfl⟩ | ⟨c, x, r, heff, rfl⟩
  · exact hinv.respond r none hroom (InFlight.good_of_legal r none hill hilc)
  · exact hinv.raiseIllegal op k hroom
  · obtain ⟨hill, hilc⟩ := heff.response_legal
    exact hinv.complete c x r hroom heff.context_exists (heff.regs_good (hinv.contexts c))
      (InFlight.good_of_legal r x.write hill hilc)

theorem State.Inv.deliver : s.deliver.Inv := by
  cases hbuf : s.rspBuf with
  | nil =>
    rw [State.deliver_of_empty s hbuf]
    exact hinv
  | cons f rest =>
    obtain ⟨hmem, hctx, habsent, hdepth, hrsp⟩ := hinv
    rw [hbuf] at hdepth hrsp
    refine ⟨?_, ?_, ?_, ?_, ?_⟩
    · rw [State.deliver_settled s f rest hbuf]
      exact applyWrites_wf _ _ _ hmem
    · simpa using hctx
    · simpa using habsent
    · rw [State.deliver_rspBuf s f rest hbuf, State.deliver_params]
      exact (Nat.le_succ _).trans hdepth
    · rw [State.deliver_rspBuf s f rest hbuf]
      exact fun g hg => hrsp g (List.mem_cons_of_mem f hg)

theorem State.Inv.resetBlock : s.resetBlock.Inv where
  memory := applyWrites_wf _ _ _ hinv.memory
  contexts c := by
    rw [State.resetBlock_context]
    exact CoRegs.reset_good
  absent c _ := State.resetBlock_context s c
  depth := Nat.zero_le _
  responses f hf := by simp at hf

end

/-- Settles O52, by what a step can do: hold, execute, answer an illegal beat, deliver or reset. -/
theorem stepKeepsInvariant : Obligations.StepKeepsInvariant := by
  intro s t hinv hstep
  rcases step_cases s t hstep with
    ⟨_, rfl⟩ | ⟨b, rest, i, hnext, _, hexec⟩ | ⟨b, rest, k, hnext, _, rfl⟩ | ⟨rest, _, rfl⟩ | ⟨rest, _, rfl⟩
  · exact hinv
  · exact (hinv.withPort rest).exec i t (s.hasRoom_of_nextEvent_command b rest hnext) hexec
  · exact (hinv.withPort rest).raiseIllegal _ k (s.hasRoom_of_nextEvent_command b rest hnext)
  · exact (hinv.withPort rest).deliver
  · exact (hinv.withPort rest).resetBlock

end Sys2Proof.Machine

/-!
PROOFS of the statements of spec/20_memory.md: O7, O28, O38, O39, O48. First the bytes of beats and entries, then what
a write to OUT leaves unchanged and shows, then the write one command makes; last the ring with a counter moved on.
-/

namespace Sys2Proof.Machine

/-! ### The bytes of beats and of entries (20_memory.md R53, R54) -/

theorem leBytes_getElem? (n : Nat) {w : Nat} (v : BitVec w) (j : Nat) (h : j < n) :
    (leBytes n v)[j]? = some (v.extractLsb' (8 * j) 8) := by
  rw [List.getElem?_eq_getElem (by simpa using h), leBytes_getElem n v j h]

/-- Settles O7: a command beat is 32 whole bytes, a response beat 16. -/
theorem beatsTravelLittleEndian : Obligations.BeatsTravelLittleEndian :=
  ⟨fun b => ⟨leBytes_length 32 b, ofLeBytes_leBytes 32 b, leBytes_getElem? 32 b⟩,
    fun b => ⟨leBytes_length 16 b, leBytes_getElem? 16 b⟩⟩

section
variable (a l : Word64) (j : Nat)

theorem entryBytes_getElem?_addr (h : j < 8) : (entryBytes a l)[j]? = some (a.extractLsb' (8 * j) 8) := by
  rw [entryBytes, List.getElem?_append_left (by simpa using h), leBytes_getElem? 8 a j h]

theorem entryBytes_getElem?_len (h : j < 8) : (entryBytes a l)[8 + j]? = some (l.extractLsb' (8 * j) 8) := by
  rw [entryBytes, List.getElem?_append_right (by simp), leBytes_length, Nat.add_sub_cancel_left,
    leBytes_getElem? 8 l j h]

end

/-- Byte `j` of an entry just written is byte `j` of `entryBytes` (R53). -/
theorem applyWrite_read_entry (p : Config.Params) (m : Memory) (w : OutWrite) (j : Nat) (h : j < 16) :
    (applyWrite p m w).read (entryAddr p w.ctx w.index + j) = (entryBytes w.addr w.len)[j]? := by
  rw [applyWrite_read_inside p m w j h, List.getElem?_eq_getElem]

/-- Settles O39: the address is the first half of the entry's bytes, the length the second. -/
theorem outEntryIsLittleEndian : Obligations.OutEntryIsLittleEndian := by
  intro p m w
  refine ⟨fun j hj => ⟨?addr, ?len⟩, fun a ha => applyWrite_read_outside p m w a ha⟩
  case addr => exact (applyWrite_read_entry p m w j (by omega)).trans (entryBytes_getElem?_addr _ _ j hj)
  case len =>
    rw [Nat.add_assoc]
    exact (applyWrite_read_entry p m w (8 + j) (by omega)).trans (entryBytes_getElem?_len _ _ j hj)

/-! ### What writes leave unchanged, and what a reader sees (20_memory.md R56, R59) -/

/-- A byte that lies in no written entry reads as before. -/
theorem applyWrites_read_outside (p : Config.Params) (ws : List OutWrite) (m : Memory) (x : Nat)
    (h : ∀ w ∈ ws, x < entryAddr p w.ctx w.index ∨ entryAddr p w.ctx w.index + 16 ≤ x) :
    (applyWrites p m ws).read x = m.read x := by
  induction ws generalizing m with
  | nil => rfl
  | cons w ws ih =>
    obtain ⟨hw, hws⟩ := List.forall_mem_cons.mp h
    exact (ih (applyWrite p m w) hws).trans (applyWrite_read_outside p m w x hw)

/-- An entry is a function of its 16 bytes. -/
theorem readEntry_congr (p : Config.Params) (m m' : Memory) (c : CtxNum) (k : Word32)
    (h : ∀ j < 16, m.read (entryAddr p c k + j) = m'.read (entryAddr p c k + j)) :
    readEntry p m c k = readEntry p m' c k := by
  have haddr : m.readBytes (entryAddr p c k) 8 = m'.readBytes (entryAddr p c k) 8 :=
    Memory.readBytes_congr _ _ _ _ fun j hj => h j (by omega)
  have hlen : m.readBytes (entryAddr p c k + 8) 8 = m'.readBytes (entryAddr p c k + 8) 8 :=
    Memory.readBytes_congr _ _ _ _ fun j hj => by
      rw [Nat.add_assoc]
      exact h (8 + j) (by omega)
  rw [readEntry, haddr, hlen, readEntry]

/-- An entry that no write overlaps is left as it was. -/
theorem readEntry_applyWrites_disjoint (p : Config.Params) (ws : List OutWrite) (m : Memory) (c : CtxNum) (k : Word32)
    (h : ∀ w ∈ ws, entryAddr p w.ctx w.index + 16 ≤ entryAddr p c k ∨
      entryAddr p c k + 16 ≤ entryAddr p w.ctx w.index) :
    readEntry p (applyWrites p m ws) c k = readEntry p m c k := by
  refine readEntry_congr p _ _ c k fun j hj => applyWrites_read_outside p ws m _ fun w hw => ?_
  have hdisjoint := h w hw
  omega

/-- With no write to the entry in flight a reader sees only what the delivered commands left: a mix of an entry with
itself is that entry (R56). -/
theorem State.eq_settled_of_mem_observable (s : State) (atomic : Bool) (c : CtxNum) (k : Word32)
    (hdone : ∀ w ∈ inFlightWrites s.rspBuf, ¬ (w.ctx = c ∧ w.index = k)) (x : Option (Word64 × Word64))
    (hx : x ∈ s.observable atomic c k) : x = readEntry s.params s.settled c k := by
  have hnone : (inFlightWrites s.rspBuf).filter (fun w => w.ctx == c && w.index == k) = [] := by
    simpa [List.filter_eq_nil_iff] using hdone
  cases atomic with
  | true => simpa [State.observable, hnone] using hx
  | false =>
    cases hread : readEntry s.params s.settled c k <;> simpa [State.observable, hnone, hread] using hx

/-- Settles O48: what a reader sees is settled, and writes in flight elsewhere leave it as it is in OUT. -/
theorem deliveredWritesAreVisible : Obligations.DeliveredWritesAreVisible := by
  intro s atomic c k hdone x hx
  have hsettled := s.eq_settled_of_mem_observable atomic c k hdone x hx
  exact ⟨hsettled, fun hdisjoint => hsettled.trans (readEntry_applyWrites_disjoint _ _ _ c k hdisjoint).symm⟩

/-! ### The write of one command (20_memory.md R51, R52; 41_segment_coalescer.md R157 to R159) -/

/-- `CO_COUNT` moves past an index below `max_out`, which leaves room for one more. -/
theorem bumpCount_toNat_of_lt (k m : Word32) (h : k.toNat < m.toNat) : (bumpCount k).toNat = k.toNat + 1 := by
  have hm := m.isLt
  simp only [bumpCount, BitVec.toNat_ofNat]
  omega

/-- A segment that writes closes the open range: entry `CO_COUNT` of the context, below `max_out`, and the count moves
past it. -/
theorem acceptSegment_write (c : CtxNum) (a : Word64) (l : Word32) (r : CoRegs) (n : Nat) (w : OutWrite)
    (h : (acceptSegment c a l r n).write = some w) :
    w.ctx = c ∧ w.index = r.coCount ∧ r.coCount.toNat < r.cfgMaxout.toNat ∧
      (acceptSegment c a l r n).regs.coCount = bumpCount r.coCount := by
  cases hv : r.accV with
  | false => simp [acceptSegment_first c a l r n hv] at h
  | true =>
    by_cases ha : a.toNat = accEnd r
    · simp [acceptSegment_merge c a l r n hv ha] at h
    · rw [acceptSegment_close c a l r n hv ha] at h ⊢
      obtain ⟨hctx, hindex, hlt⟩ := closeRange_write _ _ _ _ _ h
      exact ⟨hctx, hindex, hlt, rfl⟩

/-- The end of a list writes, if anything, entry `CO_COUNT` of the context, below `max_out`. -/
theorem finishList_write (c : CtxNum) (r : CoRegs) (n : Nat) (w : OutWrite) (h : (finishList c r n).write = some w) :
    w.ctx = c ∧ w.index = r.coCount ∧ r.coCount.toNat < r.cfgMaxout.toNat := by
  rcases finishList_cases c r n with ⟨_, e⟩ | ⟨_, e⟩ <;> rw [e] at h
  · simp at h
  · exact closeRange_write true c r n w h

/-- The write of a legal coalescer command, and the registers it leaves behind. -/
theorem CoEffect.write {s : State} {i : Instr} {c : CtxNum} {x : CoResult} {r : Response} (h : CoEffect s i c x r)
    (w : OutWrite) (hw : x.write = some w) :
    w.ctx = c ∧ w.index = (s.context c).coCount ∧ (s.context c).coCount.toNat < (s.context c).cfgMaxout.toNat ∧
      (x.regs.coCount = bumpCount (s.context c).coCount ∨ x.regs = CoRegs.reset) := by
  cases h with
  | start => cases hw
  | seg _ a l =>
    obtain ⟨hctx, hindex, hlt, hcount⟩ := acceptSegment_write c a l _ _ w hw
    exact ⟨hctx, hindex, hlt, .inl hcount⟩
  | finish =>
    obtain ⟨hctx, hindex, hlt⟩ := finishList_write c _ _ w hw
    exact ⟨hctx, hindex, hlt, .inr rfl⟩

/-- Settles O38: only a command with an effect in its context writes. -/
theorem writesAreInOrderBelowMaxOut : Obligations.WritesAreInOrderBelowMaxOut := by
  intro i s
  obtain ⟨t, hexec⟩ := exec_next i s
  rcases exec_cases i s t hexec with ⟨r, _, _, rfl⟩ | ⟨op, k, rfl⟩ | ⟨c, x, r, heff, rfl⟩
  · exact ⟨_, ⟨r, none⟩, hexec, rfl, nofun⟩
  · exact ⟨_, ⟨illegalResponse op k, none⟩, hexec, rfl, nofun⟩
  · refine ⟨_, ⟨r, x.write⟩, hexec, rfl, fun w hw => ?_⟩
    obtain ⟨rfl, hindex, hlt, hregs⟩ := heff.write w hw
    rw [State.complete_context_self, hindex]
    refine ⟨heff.names_context, rfl, hlt, hregs.imp_left fun hcount => ?_⟩
    rw [hcount, bumpCount_toNat_of_lt _ _ hlt]

/-! ### Answers of the four range and count commands (40_ring_indexer.md R106, R107, R109, R110) -/

section
variable (p c k : Word32) (s : State)

theorem answer_ringProduceRange : answer (.ringProduceRange p c k) s = some (rangeResponse .ringProduceRange
    (ringValid (exact p) (exact c) (exact k)) (produceRange (exact p) (exact c) (exact k))) :=
  answer_of_respond _ s _ rfl

theorem answer_ringConsumeRange : answer (.ringConsumeRange p c k) s = some (rangeResponse .ringConsumeRange
    (ringValid (exact p) (exact c) (exact k)) (consumeRange (exact p) (exact c) (exact k))) :=
  answer_of_respond _ s _ rfl

theorem answer_ringOccupied : answer (.ringOccupied p c k) s = some (ringResponse .ringOccupied
    (ringValid (exact p) (exact c) (exact k)) (occ (exact p) (exact c) (exact k))) :=
  answer_of_respond _ s _ rfl

theorem answer_ringFree : answer (.ringFree p c k) s = some (ringResponse .ringFree
    (ringValid (exact p) (exact c) (exact k)) (fre (exact p) (exact c) (exact k))) :=
  answer_of_respond _ s _ rfl

end

/-! ### A valid ring, and the same ring with one counter moved on (40_ring_indexer.md R100 to R103) -/

section
variable {p c k : Nat} (hring : ValidRing p c k)
include hring

theorem ValidRing.occ_nonneg : 0 ≤ occ p c k := by
  unfold ValidRing unwrapped at hring
  unfold occ unwrap doubled
  split_ifs at * <;> omega

theorem ValidRing.fre_nonneg : 0 ≤ fre p c k := by
  unfold ValidRing unwrapped at hring
  unfold fre unwrap doubled
  split_ifs at * <;> omega

/-- The producer's contiguous run is all free slots, or ends at the physical end of the ring. -/
theorem ValidRing.rangeSize_produceRange :
    rangeSize (produceRange p c k) = min (fre p c k) (k - (produceRange p c k).start) := by
  unfold ValidRing unwrapped at hring
  rw [rangeSize, produceRange_start, produceRange_stop]
  unfold fre unwrap doubled
  split_ifs at * <;> omega

/-- The consumer's contiguous run is all occupied slots, or ends at the physical end of the ring. -/
theorem ValidRing.rangeSize_consumeRange :
    rangeSize (consumeRange p c k) = min (occ p c k) (k - (consumeRange p c k).start) := by
  unfold ValidRing unwrapped at hring
  rw [rangeSize, consumeRange_start, consumeRange_stop]
  unfold occ unwrap doubled
  split_ifs at * <;> omega

theorem ValidRing.produceRange_start_mem : 0 ≤ (produceRange p c k).start ∧ (produceRange p c k).start < k := by
  obtain ⟨hp, _, _⟩ := hring
  rw [produceRange_start]
  split_ifs <;> omega

theorem ValidRing.consumeRange_start_mem : 0 ≤ (consumeRange p c k).start ∧ (consumeRange p c k).start < k := by
  obtain ⟨_, hc, _⟩ := hring
  rw [consumeRange_start]
  split_ifs <;> omega

end

/-- The free and the occupied slots are all slots, whatever the counters. -/
theorem fre_add_occ (p c k : Int) : fre p c k + occ p c k = k := by
  unfold fre occ
  ring

/-- A counter of the doubled index space that moves on by at most `cap` wraps at most once. -/
theorem moved_counter (x d k : Nat) (hx : x < 2 * k) (hd : d ≤ k) :
    (x + d) % (2 * k) = if x + d < 2 * k then x + d else x + d - 2 * k := by
  split_ifs with h
  · exact Nat.mod_eq_of_lt h
  · rw [Nat.mod_eq_sub_mod (by omega), Nat.mod_eq_of_lt (by omega)]

/-- Consuming `d` occupied slots keeps the ring valid and frees `d` slots. -/
theorem ValidRing.consume {p c k d : Nat} (hring : ValidRing p c k) (hd : (d : Int) ≤ occ p c k) :
    ValidRing p ((c + d) % (2 * k)) k ∧ fre p ((c + d) % (2 * k) : Nat) k = fre p c k + d := by
  have hfre := hring.fre_nonneg
  have htotal := fre_add_occ p c k
  obtain ⟨hp, hc, hvalid⟩ := hring
  rw [moved_counter c d k hc (by omega)]
  unfold ValidRing
  unfold unwrapped at *
  unfold fre occ unwrap doubled at *
  split_ifs at * <;> omega

/-- Producing into `d` free slots keeps the ring valid and occupies `d` slots. -/
theorem ValidRing.produce {p c k d : Nat} (hring : ValidRing p c k) (hd : (d : Int) ≤ fre p c k) :
    ValidRing ((p + d) % (2 * k)) c k ∧ occ ((p + d) % (2 * k) : Nat) c k = occ p c k + d := by
  have hocc := hring.occ_nonneg
  have htotal := fre_add_occ p c k
  obtain ⟨hp, hc, hvalid⟩ := hring
  rw [moved_counter p d k hp (by omega)]
  unfold ValidRing
  unfold unwrapped at *
  unfold fre occ unwrap doubled at *
  split_ifs at * <;> omega

/-! ### Stale counters (20_memory.md R63) -/

/-- The reduction to 32 bits keeps the order of values up to a 32-bit bound. -/
theorem trunc32_toNat_le (v w : Int) (k : Word32) (h0 : 0 ≤ v) (hle : v ≤ w) (hw : w ≤ k.toNat) :
    (trunc32 v).toNat ≤ (trunc32 w).toNat := by
  have hk := k.isLt
  have hv := exact_trunc32 v h0 (by omega)
  have hw := exact_trunc32 w (by omega) (by omega)
  simp only [exact] at hv hw
  omega

/-- With an old value of `cons` the producer sees no more free slots, and a range that begins at the same slot and ends
no later. -/
theorem ValidRing.producer_results_le {p c k d : Nat} (hring : ValidRing p c k) (hd : (d : Int) ≤ occ p c k) :
    (0 ≤ (produceRange p c k).stop ∧
      (produceRange p c k).stop ≤ (produceRange p ((c + d) % (2 * k) : Nat) k).stop ∧
      (produceRange p ((c + d) % (2 * k) : Nat) k).stop ≤ k) ∧
    (0 ≤ fre p c k ∧ fre p c k ≤ fre p ((c + d) % (2 * k) : Nat) k ∧ fre p ((c + d) % (2 * k) : Nat) k ≤ k) := by
  obtain ⟨hnew, hfre⟩ := hring.consume hd
  have hstart : (produceRange p ((c + d) % (2 * k) : Nat) k).start = (produceRange p c k).start := by
    rw [produceRange_start, produceRange_start]
  have hold_size := hring.rangeSize_produceRange
  have hnew_size := hnew.rangeSize_produceRange
  have hold_fre := hring.fre_nonneg
  have hnew_occ := hnew.occ_nonneg
  have htotal := fre_add_occ p ((c + d) % (2 * k) : Nat) k
  obtain ⟨hstart0, hstart1⟩ := hring.produceRange_start_mem
  rw [rangeSize] at hold_size hnew_size
  omega

/-- With an old value of `prod` the consumer sees no more occupied slots, and a range no longer. -/
theorem ValidRing.consumer_results_le {p c k d : Nat} (hring : ValidRing p c k) (hd : (d : Int) ≤ fre p c k) :
    (0 ≤ rangeSize (consumeRange p c k) ∧
      rangeSize (consumeRange p c k) ≤ rangeSize (consumeRange ((p + d) % (2 * k) : Nat) c k) ∧
      rangeSize (consumeRange ((p + d) % (2 * k) : Nat) c k) ≤ k) ∧
    (0 ≤ occ p c k ∧ occ p c k ≤ occ ((p + d) % (2 * k) : Nat) c k ∧ occ ((p + d) % (2 * k) : Nat) c k ≤ k) := by
  obtain ⟨hnew, hocc⟩ := hring.produce hd
  have hstart : (consumeRange ((p + d) % (2 * k) : Nat) c k).start = (consumeRange p c k).start := by
    rw [consumeRange_start, consumeRange_start]
  have hold_occ := hring.occ_nonneg
  have hnew_fre := hnew.fre_nonneg
  have htotal := fre_add_occ ((p + d) % (2 * k) : Nat) c k
  obtain ⟨hstart0, hstart1⟩ := hring.consumeRange_start_mem
  rw [hring.rangeSize_consumeRange, hnew.rangeSize_consumeRange]
  omega

/-- Settles O28: the range of a ring with the other counter moved on is as large or larger, and every result fits in 32
bits, so that the responses keep the order. -/
theorem staleCountersUnderestimate : Obligations.StaleCountersUnderestimate := by
  refine ⟨fun p c c' k d s hring hd hc' => ?producer, fun p p' c k d s hring hd hp' => ?consumer⟩
  case producer =>
    obtain ⟨⟨hstop0, hstop, hstop1⟩, hfre0, hfre, hfre1⟩ := hring.producer_results_le hd
    rw [← hc'] at hstop hstop1 hfre hfre1
    refine ⟨_, _, _, _, answer_ringProduceRange p c k s, answer_ringProduceRange p c' k s, ?base, ?start,
      trunc32_toNat_le _ _ k hstop0 hstop hstop1, answer_ringFree p c k s, answer_ringFree p c' k s,
      trunc32_toNat_le _ _ k hfre0 hfre hfre1⟩
    case base => simp only [rangeResponse, produceRange_base]
    case start => simp only [rangeResponse, produceRange_start]
  case consumer =>
    obtain ⟨⟨hsize0, hsize, hsize1⟩, hocc0, hocc, hocc1⟩ := hring.consumer_results_le hd
    rw [← hp'] at hsize hsize1 hocc hocc1
    refine ⟨_, _, _, _, answer_ringConsumeRange p c k s, answer_ringConsumeRange p' c k s, ?size,
      answer_ringOccupied p c k s, answer_ringOccupied p' c k s, trunc32_toNat_le _ _ k hocc0 hocc hocc1⟩
    case size =>
      simp only [rangeResponse, ← trunc32_sub]
      exact trunc32_toNat_le _ _ k hsize0 hsize hsize1

end Sys2Proof.Machine

/-!
PROOFS of the statements of spec/30_encoding.md: O1 to O6, O8, O9, O43 to O46. First when a beat is legal and what it
decodes to, then that a legal beat has no bit outside its fields, then the response beat and the assembler; last a
command and its one response in the buffer.
-/

namespace Sys2Proof

/-! ### When a beat is legal (30_encoding.md R73, R76, R77) -/

/-- An `OPCODE` selects an operation exactly when it is the one that R76 gives that operation. -/
theorem opcodeOf_eq_some_iff (op : OpByte) (o : Opcode) : opcodeOf op = some o ↔ op = opcodeByte o :=
  ⟨fun h => (opcodeByte_of_opcodeOf op o h).symm, fun h => h ▸ opcodeOf_opcodeByte o⟩

/-- A beat is legal exactly when it holds an assigned `OPCODE` and every must-be-zero bit of the format is clear; its
command is then read from the fields (R77). -/
theorem decode_eq_ok_iff (b : Beat) (i : Instr) :
    decode b = .ok i ↔
      ∃ o, fieldOpcode b = opcodeByte o ∧ b &&& mbzMask (formatOf o) = 0#256 ∧ readOperands o b = i := by
  simp only [← opcodeOf_eq_some_iff]
  unfold decode
  cases opcodeOf (fieldOpcode b) with
  | none => simp
  | some o => by_cases hmbz : b &&& mbzMask (formatOf o) = 0#256 <;> simp [hmbz]

theorem instrOpcode_readOperands (o : Opcode) (b : Beat) : instrOpcode (readOperands o b) = o := by
  cases o <;> rfl

/-- The beat of every command is legal (R73, R76). -/
theorem encode_legal (i : Instr) : Laws.EncodesLegal.Statement i := by
  cases i with
  | nop => exact Laws.EncodesLegal.nop
  | coStart c m off wlen ps => exact Laws.EncodesLegal.coStart c m off wlen ps
  | coSeg c a l => exact Laws.EncodesLegal.coSeg c a l
  | coEnd c => exact Laws.EncodesLegal.coEnd c
  | _ => exact Laws.EncodesLegal.ring _ _ _ _

/-- Every operand stands in the field from which its format reads it (R73, R82). -/
theorem readOperands_encode (i : Instr) : readOperands (instrOpcode i) (encode i) = i := by
  cases i <;> simp [instrOpcode, readOperands, encode, assembleRing]

/-- Settles O4: the beat of a command is legal, and its fields hold the operands. -/
theorem decodeInvertsEncode : Obligations.DecodeInvertsEncode := by
  intro i
  obtain ⟨hop, hmbz⟩ := encode_legal i
  exact (decode_eq_ok_iff _ _).mpr ⟨instrOpcode i, hop, hmbz, readOperands_encode i⟩

theorem decode_eq_ok_of_encode_eq {b : Beat} {i : Instr} (h : encode i = b) : decode b = .ok i :=
  h ▸ decodeInvertsEncode i

/-- Settles O2: each beat is the encoding of its command. -/
theorem specWordsDecode : Obligations.SpecWordsDecode := by
  refine ⟨?produce, ?start, ?seg, ?finish, ?nop⟩
  all_goals exact decode_eq_ok_of_encode_eq (by decide)

/-- Settles O1, on the 256 values of the field. -/
theorem reservedOpcodesAreTheGaps : Obligations.ReservedOpcodesAreTheGaps := by
  unfold Obligations.ReservedOpcodesAreTheGaps
  decide

/-! ### The bits under a mask (R73) -/

/-- A field that a mask covers is 0 in a beat that has the mask's bits clear. -/
theorem extractLsb'_eq_zero_of_and_eq_zero {b m : Beat} (h : b &&& m = 0#256) (start len : Nat)
    (hm : m.extractLsb' start len = BitVec.allOnes len) : b.extractLsb' start len = 0#len := by
  have hfield := congrArg (BitVec.extractLsb' start len) h
  rwa [BitVec.extractLsb'_and, hm, BitVec.and_allOnes, BitVec.extractLsb'_zero] at hfield

/-- The mask of bits 7..0 keeps the `OPCODE` alone (R72). -/
theorem and_opcodeMask (b : Beat) : b &&& 0xff#256 = (fieldOpcode b).setWidth 256 := by
  have hlow : b.toNat &&& 255 = b.toNat % 256 := Nat.and_two_pow_sub_one_eq_mod b.toNat 8
  apply BitVec.eq_of_toNat_eq
  simp [fieldOpcode, hlow]
  omega

/-- No must-be-zero bit lies in the `OPCODE` (R73). -/
theorem mbzMask_and_opcodeMask (f : Format) : mbzMask f &&& 0xff#256 = 0#256 := by
  cases f <;> decide

/-- A mask of other bits joined with the `OPCODE`'s shows exactly an `OPCODE` when the beat holds it and has the other
bits clear. -/
theorem and_mask_eq_opcode_iff (b m : Beat) (op : OpByte) (hm : m &&& 0xff#256 = 0#256) :
    b &&& (m ||| 0xff#256) = op.setWidth 256 ↔ fieldOpcode b = op ∧ b &&& m = 0#256 := by
  constructor
  · intro h
    have hlow : (m ||| 0xff#256).extractLsb' 0 8 = BitVec.allOnes 8 := by
      rw [BitVec.extractLsb'_or, extractLsb'_eq_zero_of_and_eq_zero hm 0 8 rfl]
      rfl
    have hop : fieldOpcode b = op := by
      have hfield := congrArg (BitVec.extractLsb' 0 8) h
      rwa [BitVec.extractLsb'_and, hlow, BitVec.and_allOnes, BitVec.extractLsb'_setWidth_of_le (by decide),
        BitVec.extractLsb'_eq_self] at hfield
    have habsorb : (m ||| 0xff#256) &&& m = m := by
      rw [BitVec.and_or_distrib_right, BitVec.and_self, BitVec.and_comm 0xff#256, hm, BitVec.or_zero]
    refine ⟨hop, ?_⟩
    calc b &&& m = b &&& (m ||| 0xff#256) &&& m := by rw [BitVec.and_assoc, habsorb]
      _ = b &&& 0xff#256 &&& m := by rw [h, ← hop, and_opcodeMask]
      _ = 0#256 := by rw [BitVec.and_assoc, BitVec.and_comm _ m, hm, BitVec.and_zero]
  · rintro ⟨rfl, hmbz⟩
    rw [BitVec.and_or_distrib_left, hmbz, BitVec.zero_or, and_opcodeMask]

/-- A beat decodes to an operation exactly when it holds its `OPCODE` and the must-be-zero bits are clear (R77). -/
theorem decode_opcode_iff (b : Beat) (o : Opcode) :
    (∃ i, decode b = .ok i ∧ instrOpcode i = o) ↔
      fieldOpcode b = opcodeByte o ∧ b &&& mbzMask (formatOf o) = 0#256 := by
  simp only [decode_eq_ok_iff]
  constructor
  · rintro ⟨i, ⟨o', hop, hmbz, rfl⟩, rfl⟩
    rw [instrOpcode_readOperands]
    exact ⟨hop, hmbz⟩
  · rintro ⟨hop, hmbz⟩
    exact ⟨_, ⟨o, hop, hmbz, rfl⟩, instrOpcode_readOperands o b⟩

/-- Settles O3: a row's match is the `OPCODE`, its mask the must-be-zero bits of the format and the bits of `OPCODE`. -/
theorem decodeFollowsOpcodeTable : Obligations.DecodeFollowsOpcodeTable := by
  intro row hrow b
  have hform : row.2.1 = (opcodeByte row.1).setWidth 256 ∧ row.2.2 = mbzMask (formatOf row.1) ||| 0xff#256 := by
    revert row
    decide
  obtain ⟨hmatch, hmask⟩ := hform
  rw [hmatch, hmask, and_mask_eq_opcode_iff b _ _ (mbzMask_and_opcodeMask _), decode_opcode_iff]

/-! ### A legal beat is what its fields hold (R72, R73) -/

/-- Every format has `RSVD` clear (R73), so a beat that meets a format's mask is the one assembled from its fields. -/
theorem assembleBeat_fields {b : Beat} {f : Format} (h : b &&& mbzMask f = 0#256) :
    assembleBeat (fieldOpcode b) (fieldPshift b) (fieldCtx b) (fieldW1 b) (fieldW2 b) (fieldW3 b) (fieldD1 b)
      (fieldD2 b) = b := by
  have hrsvd : b.extractLsb' 18 14 = 0#14 := extractLsb'_eq_zero_of_and_eq_zero h 18 14 (by cases f <;> decide)
  unfold assembleBeat fieldOpcode fieldPshift fieldCtx fieldW1 fieldW2 fieldW3 fieldD1 fieldD2
  rw [← hrsvd]
  simp (disch := decide) only [BitVec.extractLsb'_append_extractLsb'_eq_extractLsb', -Nat.reduceAdd]
  exact BitVec.extractLsb'_eq_self

section
variable {b : Beat} {op : OpByte} (hop : fieldOpcode b = op)
include hop

/-- Format `R` (R73): `W1`, `W2` and `W3`. -/
theorem assembleBeat_of_mbz_r (h : b &&& mbzMask .r = 0#256) :
    assembleBeat op 0#6 0#4 (fieldW1 b) (fieldW2 b) (fieldW3 b) 0#64 0#64 = b := by
  have hzero := extractLsb'_eq_zero_of_and_eq_zero h
  have hbeat := assembleBeat_fields h
  rwa [hop, fieldPshift, hzero 8 6 (by decide), fieldCtx, hzero 14 4 (by decide), fieldD1, hzero 128 64 (by decide),
    fieldD2, hzero 192 64 (by decide)] at hbeat

/-- Format `S` (R73): every field but `W2` and `W3`. -/
theorem assembleBeat_of_mbz_s (h : b &&& mbzMask .s = 0#256) :
    assembleBeat op (fieldPshift b) (fieldCtx b) (fieldW1 b) 0#32 0#32 (fieldD1 b) (fieldD2 b) = b := by
  have hzero := extractLsb'_eq_zero_of_and_eq_zero h
  have hbeat := assembleBeat_fields h
  rwa [hop, fieldW2, hzero 64 32 (by decide), fieldW3, hzero 96 32 (by decide)] at hbeat

/-- Format `G` (R73): `CTX`, `W1` and `D1`. -/
theorem assembleBeat_of_mbz_g (h : b &&& mbzMask .g = 0#256) :
    assembleBeat op 0#6 (fieldCtx b) (fieldW1 b) 0#32 0#32 (fieldD1 b) 0#64 = b := by
  have hzero := extractLsb'_eq_zero_of_and_eq_zero h
  have hbeat := assembleBeat_fields h
  rwa [hop, fieldPshift, hzero 8 6 (by decide), fieldW2, hzero 64 32 (by decide), fieldW3, hzero 96 32 (by decide),
    fieldD2, hzero 192 64 (by decide)] at hbeat

/-- Format `E` (R73): `CTX`. -/
theorem assembleBeat_of_mbz_e (h : b &&& mbzMask .e = 0#256) :
    assembleBeat op 0#6 (fieldCtx b) 0#32 0#32 0#32 0#64 0#64 = b := by
  have hzero := extractLsb'_eq_zero_of_and_eq_zero h
  have hbeat := assembleBeat_fields h
  rwa [hop, fieldPshift, hzero 8 6 (by decide), fieldW1, hzero 32 32 (by decide), fieldW2, hzero 64 32 (by decide),
    fieldW3, hzero 96 32 (by decide), fieldD1, hzero 128 64 (by decide), fieldD2, hzero 192 64 (by decide)] at hbeat

/-- Format `Z` (R73): the `OPCODE` alone. -/
theorem assembleBeat_of_mbz_z (h : b &&& mbzMask .z = 0#256) :
    assembleBeat op 0#6 0#4 0#32 0#32 0#32 0#64 0#64 = b := by
  have hzero := extractLsb'_eq_zero_of_and_eq_zero h
  have hbeat := assembleBeat_fields h
  rwa [hop, fieldPshift, hzero 8 6 (by decide), fieldCtx, hzero 14 4 (by decide), fieldW1, hzero 32 32 (by decide),
    fieldW2, hzero 64 32 (by decide), fieldW3, hzero 96 32 (by decide), fieldD1, hzero 128 64 (by decide),
    fieldD2, hzero 192 64 (by decide)] at hbeat

end

/-- A beat that holds the operation's `OPCODE` and has the must-be-zero bits clear is the encoding of the command read
from it (R73). -/
theorem encode_readOperands (b : Beat) (o : Opcode) (hop : fieldOpcode b = opcodeByte o)
    (hmbz : b &&& mbzMask (formatOf o) = 0#256) : encode (readOperands o b) = b := by
  cases o with
  | nop => exact assembleBeat_of_mbz_z hop hmbz
  | coStart => exact assembleBeat_of_mbz_s hop hmbz
  | coSeg => exact assembleBeat_of_mbz_g hop hmbz
  | coEnd => exact assembleBeat_of_mbz_e hop hmbz
  | _ => exact assembleBeat_of_mbz_r hop hmbz

/-- Settles O5: the must-be-zero bits and the fields of the format are all the bits of a beat. -/
theorem encodeInvertsDecode : Obligations.EncodeInvertsDecode := by
  intro b i hdec
  obtain ⟨o, hop, hmbz, rfl⟩ := (decode_eq_ok_iff b i).mp hdec
  exact encode_readOperands b o hop hmbz

end Sys2Proof

namespace Sys2Proof.Machine

/-! ### The response beat (30_encoding.md R74) -/

/-- Settles O6: each field is one of the parts joined, with the parts of the fields below it underneath. -/
theorem responseBeatLayout : Obligations.ResponseBeatLayout := by
  intro r
  refine ⟨?op, ?ill, ?ilc, ?rv, ?ovf, ?busy, ?zero, ?r0, ?r1, ?r2⟩
  all_goals
    simp (disch := decide) only [responseBeat, BitVec.extractLsb'_cast, BitVec.extractLsb'_append_eq_of_le,
      BitVec.extractLsb'_append_eq_of_add_le, BitVec.extractLsb'_eq_self, Nat.reduceSub, -Nat.reduceAdd]

/-! ### The assembler (R83, R84) -/

section
variable (n v : Nat) (f : BitVec n → List Instr)

/-- The last operand read decides whether the line assembles. -/
theorem fit_bind_ok :
    (fit n v >>= fun x => .ok (f x)) = if v < 2 ^ n then .ok (f (BitVec.ofNat n v)) else .error .doesNotFit := by
  unfold fit
  split <;> rfl

/-- An operand read before others adds its own condition to theirs. -/
theorem fit_bind_ite (P : Prop) [Decidable P] :
    (fit n v >>= fun x => if P then .ok (f x) else .error .doesNotFit) =
      if v < 2 ^ n ∧ P then .ok (f (BitVec.ofNat n v)) else .error .doesNotFit := by
  unfold fit
  by_cases hv : v < 2 ^ n
  · simp only [hv, if_true, true_and]
    rfl
  · simp only [hv, if_false, false_and]
    rfl

end

/-- Settles O8: operand by operand, the last one first. -/
theorem assemblerNeverTruncates : Obligations.AssemblerNeverTruncates := by
  refine ⟨fun mk a b k => ?ring, fun c m off len ps => ?start, fun c a l => ?seg, fun c => ?finish⟩
  case ring => simp only [asmRing, pure, Except.pure, fit_bind_ok, fit_bind_ite]
  case start => simp only [asmStart, pure, Except.pure, fit_bind_ok, fit_bind_ite]
  case seg => simp only [asmSeg, pure, Except.pure, fit_bind_ok, fit_bind_ite]
  case finish => simp only [asmEnd, pure, Except.pure, fit_bind_ok]

section
variable (c : CtxNum) (m : Word32) (off wlen : Word64) (ps : PageShift)

/-- Operands that are values of their fields assemble to `co.start`. -/
theorem asmStart_toNat :
    asmStart [c.toNat, m.toNat, off.toNat, wlen.toNat, ps.toNat] = .ok [.coStart c m off wlen ps] := by
  obtain ⟨_, hstart, _⟩ := assemblerNeverTruncates
  rw [hstart, if_pos ⟨c.isLt, m.isLt, off.isLt, wlen.isLt, ps.isLt⟩]
  simp only [BitVec.ofNat_toNat, BitVec.setWidth_eq]

/-- Operands that are values of their fields assemble to `co.seg`. -/
theorem asmSeg_toNat (a : Word64) (l : Word32) : asmSeg [c.toNat, a.toNat, l.toNat] = .ok [.coSeg c a l] := by
  obtain ⟨_, _, hseg, _⟩ := assemblerNeverTruncates
  rw [hseg, if_pos ⟨c.isLt, a.isLt, l.isLt⟩]
  simp only [BitVec.ofNat_toNat, BitVec.setWidth_eq]

/-- An operand that is a value of its field assembles to `co.end`. -/
theorem asmEnd_toNat : asmEnd [c.toNat] = .ok [.coEnd c] := by
  obtain ⟨_, _, _, hend⟩ := assemblerNeverTruncates
  rw [hend, if_pos c.isLt]
  simp only [BitVec.ofNat_toNat, BitVec.setWidth_eq]

/-- A segment list assembles to one `co.seg` a segment, in order (R84). -/
theorem asmSegs_toNat (segs : List Segment) :
    asmSegs c.toNat (segs.map fun g => (g.addr.toNat, g.len.toNat)) =
      .ok (segs.map fun g => .coSeg c g.addr g.len) := by
  induction segs with
  | nil => rfl
  | cons g segs ih =>
    rw [List.map_cons, asmSegs, asmSeg_toNat, ih]
    rfl

end

/-- Settles O9: `co.count` is `co.start` with `max_out` 0, and `co.coalesce` puts the segments between `co.start` and
`co.end`. -/
theorem pseudoInstructionsExpand : Obligations.PseudoInstructionsExpand := by
  refine ⟨fun c off wlen ps => asmStart_toNat c 0#32 off wlen ps, fun c m off wlen ps segs => ?coalesce⟩
  case coalesce =>
    rw [asmCoalesce, asmStart_toNat, asmSegs_toNat, asmEnd_toNat]
    rfl

/-! ### A command's one response (R71) -/

/-- What a command of operation `o` does to the response buffer and leaves at the ports (R71). `exec_answersAs` ties it
to `exec`. -/
def AnswersAs (o : Opcode) (s t : State) : Prop :=
  ∃ f : InFlight, t.rspBuf = s.rspBuf ++ [f] ∧ f.rsp.op = opcodeByte o ∧ PortsKept s t

section
variable {o : Opcode} {s effect : State} {c : CtxNum}

theorem AnswersAs.raiseIllegal (k : IllegalCause) : AnswersAs o s (raiseIllegal (opcodeByte o) k s) :=
  ⟨_, raiseIllegal_rspBuf .., rfl, rfl, rfl, rfl, rfl⟩

theorem AnswersAs.complete {x : CoResult} {r : Response} (hop : r.op = opcodeByte o) :
    AnswersAs o s (s.complete c x r) :=
  ⟨_, State.complete_rspBuf .., hop, rfl, rfl, rfl, rfl⟩

/-- The check of cause 3 answers with the command's own `OP` either way. -/
theorem AnswersAs.withContext (h : AnswersAs o s effect) : AnswersAs o s (withContext o c s effect) := by
  rcases withContext_cases o c s effect with ⟨_, e⟩ | ⟨_, e⟩ <;> rw [e]
  · exact h
  · exact .raiseIllegal .badContext

/-- So do the checks of causes 3 and 4. -/
theorem AnswersAs.withOpenContext (h : AnswersAs o s effect) : AnswersAs o s (withOpenContext o c s effect) := by
  rcases withOpenContext_cases o c s effect with ⟨_, _, e⟩ | ⟨_, _, e⟩ | ⟨_, e⟩ <;> rw [e]
  · exact h
  · exact .raiseIllegal .outOfSequence
  · exact .raiseIllegal .badContext

end

theorem exec_answersAs (i : Instr) (s : State) : ∃ t, exec i s = .next t ∧ AnswersAs (instrOpcode i) s t := by
  cases i with
  | coStart c m off wlen ps => exact ⟨_, rfl, .withContext (.complete rfl)⟩
  | coSeg c a l => exact ⟨_, rfl, .withOpenContext (.complete rfl)⟩
  | coEnd c => exact ⟨_, rfl, .withOpenContext (.complete rfl)⟩
  | _ => exact ⟨_, rfl, _, rfl, rfl, rfl, rfl, rfl, rfl⟩

/-- Settles O44. -/
theorem oneResponsePerCommand : Obligations.OneResponsePerCommand := by
  intro i s
  obtain ⟨t, hexec, f, hbuf, hop, hports⟩ := exec_answersAs i s
  exact ⟨t, f, hexec, hbuf, hop, hports⟩

/-! ### The sequence of all responses (R70, R71) -/

/-- A response added to the buffer, with nothing delivered, comes after all others. -/
theorem State.responses_of_rspBuf_append {s t : State} (f : InFlight) (hbuf : t.rspBuf = s.rspBuf ++ [f])
    (hdelivered : t.delivered = s.delivered) : t.responses = s.responses ++ [responseBeat f.rsp] := by
  simp [State.responses, hbuf, hdelivered]

/-- Taking a response moves it from the head of the buffer to the end of those delivered (R70). -/
theorem State.deliver_responses (s : State) : s.deliver.responses = s.responses := by
  cases hbuf : s.rspBuf with
  | nil => rw [State.deliver_of_empty s hbuf]
  | cons f later =>
    simp [State.responses, State.deliver_rspBuf s f later hbuf, State.deliver_delivered s f later hbuf, hbuf]

/-- Settles O45, by what a step can do: hold, execute, answer an illegal beat or deliver. -/
theorem responsesLeaveInOrder : Obligations.ResponsesLeaveInOrder := by
  intro s t hstep hreset
  rcases step_cases s t hstep with
    ⟨_, rfl⟩ | ⟨b, rest, i, _, _, hexec⟩ | ⟨b, rest, k, _, _, rfl⟩ | ⟨rest, _, rfl⟩ | ⟨rest, hnext, _⟩
  · exact .inl rfl
  · obtain ⟨t', hexec', f, hbuf, _, _, _, hdelivered, _⟩ := exec_answersAs i { s with port := rest }
    obtain rfl : t = t' := Host.Outcome.next.inj (hexec.symm.trans hexec')
    exact .inr ⟨_, State.responses_of_rspBuf_append f hbuf hdelivered⟩
  · exact .inr ⟨_, State.responses_of_rspBuf_append ⟨illegalResponse (fieldOpcode b) k, none⟩ rfl rfl⟩
  · exact .inl (State.deliver_responses { s with port := rest })
  · exact absurd hnext (hreset rest)

/-! ### The step of the next port event (R70, R77) -/

theorem step_of_nextEvent {s : State} {e : PortEvent} {rest : List PortEvent} (h : s.nextEvent = some (e, rest)) :
    step s = performEvent e { s with port := rest } := by
  simp only [step, stepPort, h]

/-- Settles O46: taking a response settles its write, which OUT already shows (20_memory.md R59). -/
theorem takingResponseDeliversOldest : Obligations.TakingResponseDeliversOldest := by
  intro s f later rest hbuf hnext
  refine ⟨({ s with port := rest } : State).deliver, step_of_nextEvent hnext, State.deliver_rspBuf _ f later hbuf,
    State.deliver_delivered _ f later hbuf, fun a => ?out, State.deliver_contexts _, State.deliver_params _,
    State.deliver_port _, State.deliver_draws _⟩
  case out => rw [State.outByte, State.deliver_out, State.withPort_out, State.outByte]

/-- Settles O43: an accepted legal beat is its command executed, and the head of the port is the first event tried. -/
theorem stepRunsDecodedCommand : Obligations.StepRunsDecodedCommand := by
  refine ⟨fun s b rest i hnext hdec => ?runs, fun s b rest hport hroom => ?first⟩
  case runs => rw [step_of_nextEvent hnext, performEvent, acceptBeat, hdec]
  case first => simp [State.nextEvent, hport, takeFirst, State.enabled, hroom]

end Sys2Proof.Machine

/-!
PROOFS of the statements of spec/40_ring_indexer.md: O11 to O18, O20 to O25, O27. First the response each RING command
adds and nothing else; then, on numbers, `Advance`, the counts and the ranges of a valid ring; last the laws built on
them.
-/

namespace Sys2Proof.Machine

/-! ### A command that only responds (10_state.md R21) -/

theorem outKept_respond (s : State) (r : Response) : OutKept s (s.respond r none) := by
  intro a
  simp only [State.outByte, State.respond_out_none]

theorem ringPlain_ringResponse (o : Opcode) (rv : Bool) (v : Int) : RingPlain (ringResponse o rv v) (opcodeByte o) :=
  ⟨rfl, rfl, rfl, rfl, rfl⟩

theorem ringPlain_rangeResponse (o : Opcode) (rv : Bool) (x : SlotRange) :
    RingPlain (rangeResponse o rv x) (opcodeByte o) :=
  ⟨rfl, rfl, rfl, rfl, rfl⟩

/-- The completion and the frame that the statements of the RING commands share: what is left of such a statement is
what it says of the response. -/
theorem exec_only_responds {i : Instr} {s : State} {r : Response} {op : OpByte} {result : Response → Prop}
    (hexec : exec i s = .next (s.respond r none)) (hplain : RingPlain r op) (hresult : result r) :
    ∃ t r, exec i s = .next t ∧ OnlyResponds s t r ∧ OutKept s t ∧ RingPlain r op ∧ result r :=
  ⟨_, r, hexec, rfl, outKept_respond s r, hplain, hresult⟩

/-! ### The results on operands (40_ring_indexer.md R102 to R105, R109, R110) -/

theorem occ_eq_unwrapped (p c k : Nat) : occ p c k = (unwrapped p c k : Int) - c := by
  unfold occ unwrap doubled unwrapped
  split_ifs <;> omega

theorem fre_eq_unwrapped (p c k : Nat) : fre p c k = (k : Int) + c - unwrapped p c k := by
  unfold fre unwrap doubled unwrapped
  split_ifs <;> omega

/-- `AdvOK` (R105) on numbers, where the difference of `Advance` cannot be negative. -/
theorem advOk_iff (i b k : Nat) :
    advOk i b k = true ↔
      1 ≤ k ∧ (b = 0 ∨ b = k) ∧ i ≤ k ∧ (if i = k then k - b else b + i) < 2 ^ 32 := by
  unfold advOk advance
  simp only [decide_eq_true_eq]
  split_ifs <;> omega

section
variable (p c k : Word32)

theorem ringValid_exact_iff :
    ringValid (exact p) (exact c) (exact k) = true ↔ ValidRing p.toNat c.toNat k.toNat :=
  ringValid_iff p.toNat c.toNat k.toNat

theorem trunc32_produceRange_base :
    trunc32 (produceRange (exact p) (exact c) (exact k)).base = if p.toNat < k.toNat then 0#32 else k := by
  rw [produceRange_base, apply_ite trunc32, trunc32_exact]
  simp only [exact_lt]
  rfl

theorem trunc32_produceRange_start :
    trunc32 (produceRange (exact p) (exact c) (exact k)).start = if p.toNat < k.toNat then p else p - k := by
  simp only [produceRange_start, apply_ite trunc32, trunc32_sub, trunc32_exact, exact_lt]

theorem trunc32_produceRange_stop :
    trunc32 (produceRange (exact p) (exact c) (exact k)).stop =
      if p.toNat < k.toNat then (if c.toNat < k.toNat then k else c - k) else if c.toNat < k.toNat then c else k := by
  simp only [produceRange_stop, apply_ite trunc32, trunc32_sub, trunc32_exact, exact_lt]

theorem trunc32_consumeRange_base :
    trunc32 (consumeRange (exact p) (exact c) (exact k)).base = if c.toNat < k.toNat then 0#32 else k := by
  rw [consumeRange_base, apply_ite trunc32, trunc32_exact]
  simp only [exact_lt]
  rfl

theorem trunc32_consumeRange_start :
    trunc32 (consumeRange (exact p) (exact c) (exact k)).start = if c.toNat < k.toNat then c else c - k := by
  simp only [consumeRange_start, apply_ite trunc32, trunc32_sub, trunc32_exact, exact_lt]

theorem trunc32_consumeRange_stop :
    trunc32 (consumeRange (exact p) (exact c) (exact k)).stop =
      if c.toNat < k.toNat then (if p.toNat < k.toNat then p else k) else if p.toNat < k.toNat then k else p - k := by
  simp only [consumeRange_stop, apply_ite trunc32, trunc32_sub, trunc32_exact, exact_lt]

end

/-- `Advance` (R104) reduced to 32 bits. -/
theorem trunc32_advance (i b k : Word32) :
    trunc32 (advance (exact i) (exact b) (exact k)) = if i = k then k - b else b + i := by
  simp only [advance, exact_inj, apply_ite trunc32, trunc32_sub, trunc32_add, trunc32_exact]

/-! ### The statements about one command -/

/-- Settles O11, row by row of the table of R102. -/
theorem ringProduceRangeResult : Obligations.RingProduceRangeResult := by
  intro p c k s
  refine exec_only_responds rfl (ringPlain_rangeResponse ..) ⟨ringValid_exact_iff p c k, ?rows⟩
  simp only [rangeResponse, trunc32_produceRange_base, trunc32_produceRange_start, trunc32_produceRange_stop]
  refine ⟨fun hp hc => ?lowLow, fun hp hc => ?lowHigh, fun hp hc => ?highLow, fun hp hc => ?highHigh⟩
  case lowLow => simp only [if_pos hp, if_pos hc, and_self]
  case lowHigh => simp only [if_pos hp, if_neg hc.not_gt, and_self]
  case highLow => simp only [if_neg hp.not_gt, if_pos hc, and_self]
  case highHigh => simp only [if_neg hp.not_gt, if_neg hc.not_gt, and_self]

/-- Settles O12, row by row of the table of R103. -/
theorem ringConsumeRangeResult : Obligations.RingConsumeRangeResult := by
  intro p c k s
  refine exec_only_responds rfl (ringPlain_rangeResponse ..) ⟨ringValid_exact_iff p c k, ?rows⟩
  simp only [rangeResponse, trunc32_consumeRange_base, trunc32_consumeRange_start, trunc32_consumeRange_stop]
  refine ⟨fun hc hp => ?lowLow, fun hc hp => ?lowHigh, fun hc hp => ?highLow, fun hc hp => ?highHigh⟩
  case lowLow => simp only [if_pos hc, if_pos hp, and_self]
  case lowHigh => simp only [if_pos hc, if_neg hp.not_gt, and_self]
  case highLow => simp only [if_neg hc.not_gt, if_pos hp, and_self]
  case highHigh => simp only [if_neg hc.not_gt, if_neg hp.not_gt, and_self]

/-- Settles O13. -/
theorem ringAdvanceResult : Obligations.RingAdvanceResult := by
  intro i b k s
  refine exec_only_responds rfl (ringPlain_ringResponse ..) ⟨rfl, rfl, trunc32_advance i b k, ?rv⟩
  simp only [← BitVec.toNat_inj]
  exact advOk_iff i.toNat b.toNat k.toNat

/-- Settles O14. -/
theorem ringOccupiedResult : Obligations.RingOccupiedResult := by
  intro p c k s
  exact exec_only_responds rfl (ringPlain_ringResponse ..) ⟨rfl, rfl, ringValid_exact_iff p c k,
    congrArg trunc32 (occ_eq_unwrapped p.toNat c.toNat k.toNat)⟩

/-- Settles O15. -/
theorem ringFreeResult : Obligations.RingFreeResult := by
  intro p c k s
  exact exec_only_responds rfl (ringPlain_ringResponse ..) ⟨rfl, rfl, ringValid_exact_iff p c k,
    congrArg trunc32 (fre_eq_unwrapped p.toNat c.toNat k.toNat)⟩

/-- Settles O16: reducing the size gives the difference of the reduced ends. -/
theorem ringCtgOccupiedResult : Obligations.RingCtgOccupiedResult := by
  intro p c k s
  exact ⟨_, _, _, rfl, rfl, outKept_respond s _, ringPlain_ringResponse .., rfl, rfl, ringValid_exact_iff p c k,
    answer_ringConsumeRange p c k s, trunc32_sub _ _⟩

/-- Settles O17: reducing the size gives the difference of the reduced ends. -/
theorem ringCtgFreeResult : Obligations.RingCtgFreeResult := by
  intro p c k s
  exact ⟨_, _, _, rfl, rfl, outKept_respond s _, ringPlain_ringResponse .., rfl, rfl, ringValid_exact_iff p c k,
    answer_ringProduceRange p c k s, trunc32_sub _ _⟩

/-- Settles O18. -/
theorem ringValidResult : Obligations.RingValidResult := by
  intro p c k s
  refine exec_only_responds rfl (ringPlain_ringResponse ..) ⟨rfl, rfl, fun hring => ?valid, fun hring => ?invalid⟩
  case valid =>
    rw [← ringValid_exact_iff] at hring
    simp only [ringResponse, hring, and_true]
    rfl
  case invalid =>
    rw [← ringValid_exact_iff, Bool.not_eq_true] at hring
    simp only [ringResponse, hring, and_true]
    rfl

/-- Settles O20: the reduction goes through the sum of the exact counts. -/
theorem occupiedPlusFreeIsCap : Obligations.OccupiedPlusFreeIsCap := by
  have hsum (p c k : Int) : occ p c k + fre p c k = k := by rw [add_comm, fre_add_occ]
  refine ⟨hsum, fun p c k s => ⟨_, _, answer_ringOccupied p c k s, answer_ringFree p c k s, ?_⟩⟩
  simp only [ringResponse, ← trunc32_add, hsum, trunc32_exact]

/-! ### `Advance` as addition in the doubled index space (R119) -/

theorem advance_eq_emod {i b k : Int} (hk : 1 ≤ k) (hb : b = 0 ∨ b = k) (hi0 : 0 ≤ i) (hik : i ≤ k) :
    advance i b k = (b + i) % (2 * k) := by
  unfold advance
  by_cases hwrap : i = k ∧ b = k
  · obtain ⟨rfl, rfl⟩ := hwrap
    rw [if_pos rfl, sub_self, ← two_mul, Int.emod_self]
  · rw [Int.emod_eq_of_lt (by omega) (by omega)]
    split_ifs <;> omega

/-- Settles O24. -/
theorem advanceIsModularAddition : Obligations.AdvanceIsModularAddition := by
  intro i b k hk hb hik
  exact advance_eq_emod (by omega) (by omega) (by omega) (by omega)

/-! ### The occupancy as a difference in the doubled index space (R100, R121) -/

theorem occ_eq_emod {p c k : Nat} (hp : p < 2 * k) (hc : c < 2 * k) : occ p c k = ((p : Int) - c) % (2 * k) := by
  unfold occ unwrap doubled
  split_ifs with hlt
  · rw [← Int.add_emod_right, Int.emod_eq_of_lt (by omega) (by omega)]
    ring
  · rw [Int.emod_eq_of_lt (by omega) (by omega)]

/-- Settles O27: on a valid ring the occupancy is the difference of the counters modulo `2*cap`. -/
theorem emptyAndFullAreDistinct : Obligations.EmptyAndFullAreDistinct := by
  intro p c k hring
  have htotal := fre_add_occ p c k
  obtain ⟨hp, hc, _⟩ := hring
  refine ⟨?empty, by rw [occ_eq_emod hp hc], by omega⟩
  case empty =>
    unfold occ unwrap doubled
    split_ifs <;> omega

/-! ### The ranges of a valid ring (R101) -/

/-- A range as R101 describes it: it stands inside a buffer of `k` slots and starts at the slot of counter `x`. -/
structure SlotRange.StartsAt (r : SlotRange) (x k : Nat) : Prop where
  base_eq : r.base = 0 ∨ r.base = k
  start_nonneg : 0 ≤ r.start
  start_le_stop : r.start ≤ r.stop
  stop_le : r.stop ≤ k
  start_lt : r.start < k
  base_add_start : r.base + r.start = x

/-- What the tables of R102 and R103 share: base and start are those of the counter's half, and the size is a count or
what is left up to the physical end. -/
theorem SlotRange.startsAt_of_half {r : SlotRange} {x k : Nat} {count : Int} (hx : x < 2 * k)
    (hbase : r.base = if (x : Int) < k then 0 else (k : Int))
    (hstart : r.start = if (x : Int) < k then (x : Int) else x - k)
    (hcount : 0 ≤ count) (hsize : rangeSize r = min count (k - r.start)) : r.StartsAt x k := by
  rw [rangeSize] at hsize
  split_ifs at hbase hstart <;> constructor <;> omega

theorem ValidRing.produceRange_startsAt {p c k : Nat} (hring : ValidRing p c k) : (produceRange p c k).StartsAt p k :=
  have ⟨hp, _, _⟩ := hring
  SlotRange.startsAt_of_half hp (produceRange_base ..) (produceRange_start ..) hring.fre_nonneg
    hring.rangeSize_produceRange

theorem ValidRing.consumeRange_startsAt {p c k : Nat} (hring : ValidRing p c k) : (consumeRange p c k).StartsAt c k :=
  have ⟨_, hc, _⟩ := hring
  SlotRange.startsAt_of_half hc (consumeRange_base ..) (consumeRange_start ..) hring.occ_nonneg
    hring.rangeSize_consumeRange

section
variable {r : SlotRange} {x k : Nat} (h : r.StartsAt x k)
include h

/-- Counter `base + i` stands for the physical slot `i` (90_conflicts.md C1). -/
theorem SlotRange.StartsAt.base_add_emod {i : Int} (h0 : 0 ≤ i) (hlt : i < k) : (r.base + i) % k = i := by
  rcases h.base_eq with hbase | hbase <;> rw [hbase]
  · rw [zero_add, Int.emod_eq_of_lt h0 hlt]
  · rw [Int.add_emod_left, Int.emod_eq_of_lt h0 hlt]

theorem SlotRange.StartsAt.emod_eq_start : (x : Int) % k = r.start := by
  rw [← h.base_add_start, h.base_add_emod h.start_nonneg h.start_lt]

/-- Committing `n` slots of a range moves its counter on by `n` (R119, R120). -/
theorem SlotRange.StartsAt.advance_eq {n : Int} (h0 : 0 ≤ n) (hsize : n ≤ rangeSize r) :
    advance (r.start + n) r.base k = ((x : Int) + n) % (2 * k) := by
  obtain ⟨hbase, hstart0, _, hstop, hstart, hcounter⟩ := h
  rw [rangeSize] at hsize
  rw [advance_eq_emod (by omega) hbase (by omega) (by omega), ← add_assoc, hcounter]

end

/-- Settles O22: both ranges are as R101 describes them. -/
theorem rangesNameCounters : Obligations.RangesNameCounters := by
  intro p c k hring x hx
  obtain ⟨n, hn, h⟩ : ∃ n : Nat, n = x.2 ∧ x.1.StartsAt n k := by
    rcases List.mem_pair.mp hx with rfl | rfl
    · exact ⟨p, rfl, hring.produceRange_startsAt⟩
    · exact ⟨c, rfl, hring.consumeRange_startsAt⟩
  have hslot {i : Int} := h.base_add_emod (i := i)
  obtain ⟨hbase, hstart0, hle, hstop, hstart, hcounter⟩ := h
  exact ⟨hbase, hstart0, hle, hstop, hstart, hcounter.trans hn,
    fun i hi0 hi => ⟨by omega, hslot (by omega) (by omega)⟩⟩

/-! ### No result of a valid ring is reduced (R115) -/

theorem ValidRing.results_mem {p c k : Nat} (hring : ValidRing p c k) :
    ∀ v ∈ [(produceRange p c k).base, (produceRange p c k).start, (produceRange p c k).stop,
        (consumeRange p c k).base, (consumeRange p c k).start, (consumeRange p c k).stop,
        occ p c k, fre p c k, rangeSize (consumeRange p c k), rangeSize (produceRange p c k)],
      0 ≤ v ∧ v ≤ k := by
  have hocc := hring.occ_nonneg
  have hfre := hring.fre_nonneg
  have htotal := fre_add_occ p c k
  obtain ⟨hpbase, hpstart0, hple, hpstop, -, -⟩ := hring.produceRange_startsAt
  obtain ⟨hcbase, hcstart0, hcle, hcstop, -, -⟩ := hring.consumeRange_startsAt
  simp only [List.forall_mem_cons, List.not_mem_nil, false_implies, implies_true, and_true, rangeSize]
  omega

/-- Settles O21: the results are at most `cap`, which has 32 bits; `Advance` is a remainder modulo `2*cap`. -/
theorem validRingResultsNotTruncated : Obligations.ValidRingResultsNotTruncated := by
  refine ⟨fun p c k hring => ?results, fun i b k hok => ?advance⟩
  case results =>
    intro P C K v hv
    obtain ⟨hv0, hvk⟩ : 0 ≤ v ∧ v ≤ k.toNat := hring.results_mem v hv
    exact ⟨hv0, hvk, exact_trunc32 v hv0 (by omega)⟩
  case advance =>
    intro v
    obtain ⟨hk, hbase, hik, hlt⟩ : 1 ≤ exact k ∧ (exact b = 0 ∨ exact b = exact k) ∧ exact i ≤ exact k ∧
        v < 2 ^ 32 := of_decide_eq_true hok
    have hv : v = (exact b + exact i) % (2 * exact k) := advance_eq_emod hk hbase (Int.natCast_nonneg _) hik
    have hv0 : 0 ≤ v := hv ▸ Int.emod_nonneg _ (by omega)
    exact ⟨hv0, hv ▸ Int.emod_lt_of_pos _ (by omega), hlt, exact_trunc32 v hv0 hlt⟩

/-! ### Contiguous runs and totals (R118) -/

/-- The physical slot of a counter of the doubled index space. -/
theorem counter_mod_cap {x k : Nat} (hx : x < 2 * k) : x % k = if x < k then x else x - k := by
  split_ifs with hlt
  · exact Nat.mod_eq_of_lt hlt
  · rw [Nat.mod_eq_sub_mod (by omega), Nat.mod_eq_of_lt (by omega)]

section
variable {p c k : Nat} (hring : ValidRing p c k)
include hring

/-- The occupied slots are one run exactly when the counters stand in one half or `prod` begins a half. -/
theorem ValidRing.rangeSize_consumeRange_eq_occ_iff :
    rangeSize (consumeRange p c k) = occ p c k ↔ (p < k ↔ c < k) ∨ p % k = 0 := by
  obtain ⟨hp, hc, hvalid⟩ := hring
  rw [counter_mod_cap hp, rangeSize, consumeRange_start, consumeRange_stop]
  unfold unwrapped at hvalid
  unfold occ unwrap doubled
  split_ifs at * <;> omega

/-- The free slots are one run exactly when the counters stand in different halves or `cons` begins a half, not as the
source's gloss has it (90_conflicts.md C2). -/
theorem ValidRing.rangeSize_produceRange_eq_fre_iff :
    rangeSize (produceRange p c k) = fre p c k ↔ ¬ (p < k ↔ c < k) ∨ c % k = 0 := by
  obtain ⟨hp, hc, hvalid⟩ := hring
  rw [counter_mod_cap hc, rangeSize, produceRange_start, produceRange_stop]
  unfold unwrapped at hvalid
  unfold fre unwrap doubled
  split_ifs at * <;> omega

end

/-- Settles O23: a run ends at the physical end of the buffer or holds the whole count. -/
theorem contiguousRunsAreMaximal : Obligations.ContiguousRunsAreMaximal := by
  intro p c k hring co cf
  have hocc := hring.occ_nonneg
  have hfre := hring.fre_nonneg
  have hp := hring.produceRange_startsAt.emod_eq_start
  have hc := hring.consumeRange_startsAt.emod_eq_start
  have hpstart := hring.produceRange_startsAt.start_lt
  have hcstart := hring.consumeRange_startsAt.start_lt
  have hcf : cf = min (fre p c k) ((k : Int) - (p : Int) % k) := by rw [hp]; exact hring.rangeSize_produceRange
  have hco : co = min (occ p c k) ((k : Int) - (c : Int) % k) := by rw [hc]; exact hring.rangeSize_consumeRange
  exact ⟨by omega, by omega, by omega, by omega, hcf, hco, hring.rangeSize_consumeRange_eq_occ_iff,
    hring.rangeSize_produceRange_eq_fre_iff, by omega, by omega⟩

/-! ### Round trip (R120) -/

section
variable {p c k : Nat} {n : Int} (hring : ValidRing p c k) (h0 : 0 ≤ n)
include hring h0

/-- Producing into `n` slots of the range, as `ValidRing.produce` on exact integers. -/
theorem ValidRing.commit_produce (hn : n ≤ rangeSize (produceRange p c k)) :
    occ (((p : Int) + n) % (2 * k)) c k = occ p c k + n ∧ ringValid (((p : Int) + n) % (2 * k)) c k = true := by
  lift n to Nat using h0
  rw [hring.rangeSize_produceRange] at hn
  obtain ⟨hvalid, hocc⟩ := hring.produce (d := n) (by omega)
  rw [← ringValid_iff] at hvalid
  exact ⟨mod_cast hocc, mod_cast hvalid⟩

/-- Consuming `n` slots of the range, as `ValidRing.consume` on exact integers. -/
theorem ValidRing.commit_consume (hn : n ≤ rangeSize (consumeRange p c k)) :
    occ p (((c : Int) + n) % (2 * k)) k = occ p c k - n ∧ ringValid p (((c : Int) + n) % (2 * k)) k = true := by
  lift n to Nat using h0
  rw [hring.rangeSize_consumeRange] at hn
  obtain ⟨hvalid, hfre⟩ := hring.consume (d := n) (by omega)
  have hold := fre_add_occ p c k
  have hnew := fre_add_occ p ((c + n) % (2 * k) : Nat) k
  have hocc : occ p ((c + n) % (2 * k) : Nat) k = occ p c k - n := by omega
  rw [← ringValid_iff] at hvalid
  exact ⟨mod_cast hocc, mod_cast hvalid⟩

end

/-- Settles O25: the new counter is the old one moved on by `n`, for which the ring is known. -/
theorem ringRoundTrip : Obligations.RingRoundTrip := by
  intro p c k n hring h0
  refine ⟨fun hn => ?produce, fun hn => ?consume⟩
  case produce =>
    intro r p2
    have hp2 : p2 = ((p : Int) + n) % (2 * k) := hring.produceRange_startsAt.advance_eq h0 hn
    exact ⟨hp2, hp2 ▸ hring.commit_produce h0 hn⟩
  case consume =>
    intro r c2
    have hc2 : c2 = ((c : Int) + n) % (2 * k) := hring.consumeRange_startsAt.advance_eq h0 hn
    exact ⟨hc2, hc2 ▸ hring.commit_consume h0 hn⟩

end Sys2Proof.Machine

/-!
PROOFS of the statements of spec/41_segment_coalescer.md: O29 to O35, O54 to O60. First what one coalescer command
does to its context and to OUT; then the merge walk on its own; then runs of commands, those of one context alone and
interleaved; last a whole transaction, whose registers and writes follow the walk.
-/

namespace Sys2Proof.Machine

/-! ### The coalescer's commands where they are legal (R156, R157, R159) -/

section
variable (c : CtxNum) (s : State)

/-- A `CO_START` to a context that exists is legal and takes effect (30_encoding.md R77). -/
theorem exec_coStart_of_exists (m : Word32) (off wlen : Word64) (ps : PageShift) (hc : ctxExists s.params c = true) :
    exec (.coStart c m off wlen ps) s =
      .next (s.complete c ⟨startRegs m off wlen ps, none, s.draws⟩ startResponse) := by
  simp [exec, execCoStart, withContext, hc]

/-- A `CO_START` to a context that does not exist is illegal (R77, cause 3). -/
theorem exec_coStart_of_absent (m : Word32) (off wlen : Word64) (ps : PageShift) (hc : ctxExists s.params c = false) :
    exec (.coStart c m off wlen ps) s = .next (raiseIllegal (opcodeByte .coStart) .badContext s) := by
  simp [exec, execCoStart, withContext, hc]

/-- A `CO_END` to a context with an open transaction is legal and takes effect (R77). -/
theorem exec_coEnd_of_open (h : OpenContext s c) :
    exec (.coEnd c) s = .next (s.complete c { finishList c (s.context c) s.draws with regs := CoRegs.reset }
      (endResponse (finishList c (s.context c) s.draws).regs)) := by
  obtain ⟨hc, hb⟩ := h
  simp [exec, execCoEnd, withOpenContext, withContext, hc, hb]

/-! ### What a completed coalescer operation keeps and writes -/

variable (x : CoResult) (q : Response)

theorem State.complete_otherContextsKept : OtherContextsKept c s (s.complete c x q) :=
  State.complete_context_ne s c x q

theorem State.complete_portsKept : PortsKept s (s.complete c x q) := ⟨rfl, rfl, rfl, rfl⟩

theorem State.complete_outKept (h : x.write = none) : OutKept s (s.complete c x q) := fun a => by
  rw [State.outByte, out_of_no_write s (s.complete c x q) q rfl rfl (by simp [h]), State.outByte]

section
variable (w : OutWrite) (h : x.write = some w)
include h

theorem State.complete_out_of_write : (s.complete c x q).out = applyWrite s.params s.out w :=
  out_of_write s _ q w rfl rfl (by simp [h])

theorem State.complete_outKeptOutside : OutKeptOutside w.ctx w.index s (s.complete c x q) := fun a ha => by
  rw [State.outByte, State.complete_out_of_write c s x q w h, applyWrite_read_outside, State.outByte]
  exact not_and_or.mp ha |>.imp not_le.mp not_lt.mp

theorem State.complete_outEntry : (s.complete c x q).outEntry w.ctx w.index = some (w.addr, w.len) := by
  rw [State.outEntry, State.complete_out_of_write c s x q w h, State.complete_params, readEntry_applyWrite_self]

end
end

/-! ### `Close` with its trims (R158) -/

/-- The last trim of `Close(is_last)` (R158): the tail on the last range, nothing on the others. -/
def lastTrim (isLast : Bool) (r : CoRegs) : Nat := if isLast then tail r.cfgWoff r.cfgWlen r.cfgPshift else 0

theorem closedAddr_eq (r : CoRegs) : closedAddr r = (r.accAddr.toNat : Int) + firstTrim r := by
  unfold closedAddr firstTrim exact
  simp only [← BitVec.toNat_inj]
  split_ifs <;> simp_all

theorem closedLen_eq (isLast : Bool) (r : CoRegs) :
    closedLen isLast r = (r.accLen.toNat : Int) - firstTrim r - lastTrim isLast r := by
  unfold closedLen firstTrim lastTrim exact
  simp only [← BitVec.toNat_inj]
  cases isLast <;> split_ifs <;> simp_all

/-- `CO_COUNT` after a close, as a number (R158). -/
theorem bumpCount_toNat (k : Word32) : (bumpCount k).toNat = nextCount k := by
  have hk := k.isLt
  simp only [bumpCount, nextCount, BitVec.toNat_ofNat]
  omega

section
variable (isLast : Bool) (c : CtxNum) (r : CoRegs) (n : Nat)

/-- At or above `max_out` `Close` writes nothing and draws nothing. -/
theorem closeRange_of_full (h : r.cfgMaxout.toNat ≤ r.coCount.toNat) :
    (closeRange isLast c r n).write = none ∧ (closeRange isLast c r n).draws = n := by
  unfold closeRange
  rw [if_neg (not_lt.mpr h)]
  exact ⟨rfl, rfl⟩

/-- Below `max_out` `Close` writes entry `CO_COUNT`; where no condition of R155 holds, with the range as trimmed, which
64 bits hold, and no free value drawn. -/
theorem closeRange_of_room (h : r.coCount.toNat < r.cfgMaxout.toNat) :
    ∃ w, (closeRange isLast c r n).write = some w ∧ w.ctx = c ∧ w.index = r.coCount ∧
      (r.coUndef = false → 0 ≤ closedLen isLast r → closedAddr r < 2 ^ 64 →
        (closeRange isLast c r n).draws = n ∧ exact w.addr = closedAddr r ∧ exact w.len = closedLen isLast r) := by
  rcases closeRange_cases isLast c r n with ⟨hfull, _⟩ | ⟨_, _, hlen, haddr, e⟩ | ⟨_, hundef, e⟩
  · exact absurd h (not_lt.mpr hfull)
  · have haddr0 : 0 ≤ closedAddr r := by rw [closedAddr_eq]; omega
    have hlen64 : closedLen isLast r < 2 ^ 64 := by
      have := r.accLen.isLt
      rw [closedLen_eq]
      omega
    rw [e]
    exact ⟨_, rfl, rfl, rfl, fun _ _ _ =>
      ⟨rfl, exact_trunc64 _ haddr0 haddr, exact_trunc64 _ hlen hlen64⟩⟩
  · rw [e]
    refine ⟨_, rfl, rfl, rfl, fun hu hl ha => ?_⟩
    rcases hundef with hundef | hundef | hundef
    · simp [hu] at hundef
    · exact absurd hl (not_le.mpr hundef)
    · exact absurd ha (not_lt.mpr hundef)

/-- What a command that closes the open range `r` of context `c` does to OUT, whatever else it completes with. -/
theorem State.complete_closeRange (s : State) (g : CoRegs) (q : Response) :
    let d := closeRange isLast c r s.draws
    let t := s.complete c ⟨g, d.write, d.draws⟩ q
    (r.cfgMaxout.toNat ≤ r.coCount.toNat → d.write = none ∧ OutKept s t ∧ t.draws = s.draws) ∧
    (r.coCount.toNat < r.cfgMaxout.toNat →
      d.write.isSome = true ∧ OutKeptOutside c r.coCount s t ∧ (t.outEntry c r.coCount).isSome = true ∧
      (r.coUndef = false → firstTrim r + lastTrim isLast r ≤ r.accLen.toNat →
        r.accAddr.toNat + firstTrim r < 2 ^ 64 →
        t.draws = s.draws ∧
        ∃ A L, t.outEntry c r.coCount = some (A, L) ∧ A.toNat = r.accAddr.toNat + firstTrim r ∧
          L.toNat = r.accLen.toNat - (firstTrim r + lastTrim isLast r))) := by
  intro d t
  refine ⟨fun hfull => ?full, fun hroom => ?room⟩
  case full =>
    obtain ⟨hwrite, hdraws⟩ := closeRange_of_full isLast c r s.draws hfull
    exact ⟨hwrite, State.complete_outKept c s _ q hwrite, hdraws⟩
  case room =>
    obtain ⟨w, hwrite, rfl, hindex, hdefined⟩ := closeRange_of_room isLast c r s.draws hroom
    have hentry := State.complete_outEntry w.ctx s ⟨g, d.write, d.draws⟩ q w hwrite
    have hkept := State.complete_outKeptOutside w.ctx s ⟨g, d.write, d.draws⟩ q w hwrite
    rw [hindex] at hentry hkept
    refine ⟨by rw [hwrite]; rfl, hkept, by rw [hentry]; rfl, fun hundef htrims haddr => ?_⟩
    rw [closedAddr_eq, closedLen_eq] at hdefined
    obtain ⟨hdraws, hA, hL⟩ := hdefined hundef (by omega) (by omega)
    unfold exact at hA hL
    exact ⟨hdraws, w.addr, w.len, hentry, by omega, by omega⟩

end

/-- The completion and the frame of a command to context `c` that writes nothing to OUT. -/
theorem exec_completes_without_write {i : Instr} {c : CtxNum} {s : State} {g : CoRegs} {q : Response}
    (hexec : exec i s = .next (s.complete c ⟨g, none, s.draws⟩ q)) :
    ∃ t, exec i s = .next t ∧ t.context c = g ∧ t.rspBuf = s.rspBuf ++ [⟨q, none⟩] ∧
      OtherContextsKept c s t ∧ PortsKept s t ∧ OutKept s t ∧ t.draws = s.draws :=
  ⟨_, hexec, State.complete_context_self s c _ q, rfl, State.complete_otherContextsKept c s _ q,
    State.complete_portsKept c s _ q, State.complete_outKept c s _ q rfl, rfl⟩

/-! ### The statements about one command -/

/-- Settles O29. -/
theorem coStartOpensTransaction : Obligations.CoStartOpensTransaction := by
  intro c m off wlen ps s
  refine ⟨fun hc => ?legal, fun hc => ?absent⟩
  case legal => exact exec_completes_without_write (exec_coStart_of_exists c s m off wlen ps hc)
  case absent => exact ⟨_, exec_coStart_of_absent c s m off wlen ps hc, rfl⟩

/-- Settles O30. -/
theorem coSegFirstOpensRange : Obligations.CoSegFirstOpensRange := by
  intro c a l s hopen hv
  have hexec := exec_coSeg_of_open c a l s hopen
  rw [acceptSegment_first c a l _ _ hv] at hexec
  exact exec_completes_without_write hexec

/-- Settles O31: an adjacent segment finds no carry, so the exact length is `ACC_LEN`. -/
theorem coSegAdjacentMerges : Obligations.CoSegAdjacentMerges := by
  intro c a l s hopen hv ha
  have hlen : accLength (s.context c) = (s.context c).accLen.toNat := by
    simp [accLength, accCarry_of_adjacent a _ ha]
  have hsum : trunc64 ((s.context c).accLen.toNat + l.toNat : Nat) = (s.context c).accLen + l.setWidth 64 := by
    apply BitVec.eq_of_toNat_eq
    simp only [trunc64, BitVec.toNat_ofInt, BitVec.toNat_add, BitVec.toNat_setWidth]
    omega
  have hexec := exec_coSeg_of_open c a l s hopen
  rw [acceptSegment_merge c a l _ _ hv ha, hlen] at hexec
  rw [← hsum]
  exact exec_completes_without_write hexec

/-- Settles O32: the open range, with the marks that this segment adds, is closed as `Close(false)` does. -/
theorem coSegNonAdjacentCloses : Obligations.CoSegNonAdjacentCloses := by
  intro c a l s hopen hv ha r undef
  have hexec := exec_coSeg_of_open c a l s hopen
  rw [acceptSegment_close c a l _ _ hv ha] at hexec
  refine ⟨_, _, hexec, ?regs, rfl, State.complete_otherContextsKept c s _ _, State.complete_portsKept c s _ _,
    State.complete_closeRange false c (closingRegs a l r) s _ _⟩
  case regs =>
    rw [State.complete_context_self]
    simp only [CoRegs.openRange, closingRegs, CoRegs.markUndef, r, hv]
    rfl

/-! ### The response of `CO_END` (R159) -/

section
variable (r : CoRegs)

/-- `R1` is the number of entries the transaction has in OUT. -/
theorem endResponse_r1 : (endResponse r).r1.toNat = min r.coCount.toNat r.cfgMaxout.toNat := by
  simp only [endResponse]
  split_ifs with h
  · exact (min_eq_left h).symm
  · exact (min_eq_right (not_le.mp h).le).symm

theorem endResponse_ovf : (endResponse r).ovf = true ↔ r.cfgMaxout.toNat < r.coCount.toNat := by
  simp [endResponse, overflow]

end

/-- Settles O33. -/
theorem coEndOfEmptyList : Obligations.CoEndOfEmptyList := by
  intro c s hopen hv
  have hexec := exec_coEnd_of_open c s hopen
  simp only [finishList, hv] at hexec
  obtain ⟨t, hnext, hreset, hbuf, hkept⟩ := exec_completes_without_write hexec
  exact ⟨t, _, hnext, hreset, hbuf, rfl, rfl, rfl, rfl, rfl, rfl, rfl, endResponse_r1 _, endResponse_ovf _, hkept⟩

/-- Settles O34: the last range is closed as `Close(true)` does, and the response is computed before the reset. -/
theorem coEndClosesLastRange : Obligations.CoEndClosesLastRange := by
  intro c s hopen hv r trims
  have hexec := exec_coEnd_of_open c s hopen
  simp only [finishList, hv, if_true, closeRange_regs] at hexec
  refine ⟨_, _, _, hexec, State.complete_context_self s c _ _, rfl, rfl, rfl, rfl, rfl, rfl, rfl, bumpCount_toNat _,
    ?r1, ?ovf, State.complete_otherContextsKept c s _ _, State.complete_portsKept c s _ _,
    State.complete_closeRange true c r s _ _⟩
  case r1 => rw [endResponse_r1, bumpCount_toNat]
  case ovf => rw [endResponse_ovf, bumpCount_toNat]

/-! ### The tail of a window (R152) -/

/-- Below the page size the mask of the source changes nothing. -/
theorem tail_eq (off wlen : Word64) (ps : PageShift) :
    tail off wlen ps =
      if (off.toNat + wlen.toNat) % pageSize ps = 0 then 0
      else pageSize ps - (off.toNat + wlen.toNat) % pageSize ps := by
  have hpage : 0 < pageSize ps := Nat.two_pow_pos _
  have hmask (v : Nat) : v &&& (pageSize ps - 1) = v % pageSize ps := Nat.and_two_pow_sub_one_eq_mod v ps.toNat
  simp only [tail, hmask]
  split_ifs with hrem
  · rfl
  · exact Nat.mod_eq_of_lt (by omega)

/-- Settles O35. -/
theorem tailIsRestOfLastPage : Obligations.TailIsRestOfLastPage := tail_eq

/-! ### The merge walk (R151) -/

/-- A segment as a range of its own (R151). -/
def Segment.range (g : Segment) : MergedRange := ⟨g.addr.toNat, g.len.toNat⟩

/-- The first address after a range: the address of a segment adjacent to it (R151). -/
def MergedRange.stop (r : MergedRange) : Nat := r.addr + r.len

/-- A range with the length of an adjacent segment added (R151). -/
def MergedRange.grow (r : MergedRange) (g : Segment) : MergedRange := ⟨r.addr, r.len + g.len.toNat⟩

@[simp] theorem walk_nil : walk [] = [] := rfl

section
variable (segs : List Segment) (g : Segment)

theorem walk_concat : walk (segs ++ [g]) = walkStep (walk segs) g := by
  simp [walk]

/-- The first segment opens a range. -/
theorem walk_concat_first (h : walk segs = []) : walk (segs ++ [g]) = [g.range] := by
  rw [walk_concat, h]
  rfl

section
variable (init : List MergedRange) (last : MergedRange) (h : walk segs = init ++ [last])
include h

/-- A segment at the end of the last range extends it. -/
theorem walk_concat_merge (ha : g.addr.toNat = last.stop) : walk (segs ++ [g]) = init ++ [last.grow g] := by
  simp only [MergedRange.stop] at ha
  simp [walk_concat, h, walkStep, ha, MergedRange.grow]

/-- Any other segment opens a new range. -/
theorem walk_concat_open (ha : g.addr.toNat ≠ last.stop) : walk (segs ++ [g]) = init ++ [last] ++ [g.range] := by
  simp only [MergedRange.stop] at ha
  simp [walk_concat, h, walkStep, ha, Segment.range]

end
end

/-- Induction over a segment list from its front, with the three turns of the walk as the cases. -/
theorem walk_induction {motive : List Segment → List MergedRange → Prop} (nil : motive [] [])
    (first : ∀ segs g, motive segs [] → motive (segs ++ [g]) [g.range])
    (merge : ∀ segs g init last, g.addr.toNat = last.stop → motive segs (init ++ [last]) →
      motive (segs ++ [g]) (init ++ [last.grow g]))
    (fresh : ∀ segs g init last, g.addr.toNat ≠ last.stop → motive segs (init ++ [last]) →
      motive (segs ++ [g]) (init ++ [last] ++ [g.range])) (segs : List Segment) : motive segs (walk segs) := by
  induction segs using List.reverseRecOn with
  | nil => exact nil
  | append_singleton segs g ih =>
    rcases List.eq_nil_or_concat' (walk segs) with hnil | ⟨init, last, hlast⟩
    · rw [walk_concat_first segs g hnil]
      exact first segs g (hnil ▸ ih)
    · rw [hlast] at ih
      by_cases ha : g.addr.toNat = last.stop
      · rw [walk_concat_merge segs g init last hlast ha]
        exact merge segs g init last ha ih
      · rw [walk_concat_open segs g init last hlast ha]
        exact fresh segs g init last ha ih

/-- A property of ranges that every segment has, and that a range keeps when such a segment extends it, holds of every
range of the walk. -/
theorem walk_forall {P : MergedRange → Prop} (segs : List Segment) (hsegs : ∀ g ∈ segs, P g.range)
    (hgrow : ∀ (r : MergedRange) (g : Segment), g.addr.toNat = r.stop → P r → P g.range → P (r.grow g)) :
    ∀ r ∈ walk segs, P r := by
  induction segs using walk_induction with
  | nil => simp
  | first segs g ih => simp_all
  | merge segs g init last ha ih =>
    simp only [List.forall_mem_append, List.forall_mem_singleton] at hsegs ih ⊢
    obtain ⟨hsegs, hg⟩ := hsegs
    obtain ⟨hinit, hlast⟩ := ih hsegs
    exact ⟨hinit, hgrow last g ha hlast hg⟩
  | fresh segs g init last ha ih =>
    simp only [List.forall_mem_append, List.forall_mem_singleton] at hsegs ih ⊢
    exact hsegs.imp_left ih

/-- The walk ends, exactly, where the last segment ends. -/
theorem walk_getLast_stop (segs : List Segment) :
    (walk segs).getLast?.map MergedRange.stop = segs.getLast?.map fun g => g.range.stop := by
  induction segs using walk_induction with
  | nil => rfl
  | first segs g ih => simp
  | merge segs g init last ha ih =>
    simp only [List.getLast?_concat, Option.map_some, Option.some.injEq]
    simp only [MergedRange.stop, MergedRange.grow, Segment.range] at ha ⊢
    omega
  | fresh segs g init last ha ih => simp

/-! ### What the walk describes (R151, R168) -/

/-- The byte addresses of a list of ranges, in order. -/
def coveredBytes (rs : List MergedRange) : List Nat := rs.flatMap fun r => rangeBytes r.addr r.len

theorem coveredBytes_append (rs rs' : List MergedRange) :
    coveredBytes (rs ++ rs') = coveredBytes rs ++ coveredBytes rs' := List.flatMap_append

theorem coveredBytes_singleton (r : MergedRange) : coveredBytes [r] = rangeBytes r.addr r.len :=
  List.flatMap_singleton ..

/-- A segment that extends a range adds its own bytes after those of the range. -/
theorem rangeBytes_grow (r : MergedRange) (g : Segment) (ha : g.addr.toNat = r.stop) :
    rangeBytes (r.grow g).addr (r.grow g).len = rangeBytes r.addr r.len ++ rangeBytes g.addr.toNat g.len.toNat := by
  rw [ha]
  exact List.range'_append_1.symm

/-- The walk describes exactly the bytes of the region, in order. -/
theorem coveredBytes_walk (segs : List Segment) : coveredBytes (walk segs) = regionBytes segs := by
  have hregion (xs : List Segment) (g : Segment) :
      regionBytes (xs ++ [g]) = regionBytes xs ++ rangeBytes g.addr.toNat g.len.toNat := by
    simp [regionBytes]
  induction segs using walk_induction with
  | nil => rfl
  | first segs g ih => rw [hregion, ← ih, coveredBytes_singleton]; rfl
  | merge segs g init last ha ih =>
    rw [hregion, ← ih, coveredBytes_append, coveredBytes_append, coveredBytes_singleton, coveredBytes_singleton,
      rangeBytes_grow last g ha, List.append_assoc]
  | fresh segs g init last ha ih => rw [hregion, ← ih, coveredBytes_append, coveredBytes_singleton]; rfl

/-- No two consecutive ranges of the walk are adjacent. -/
theorem walk_isChain_not_adjacent (segs : List Segment) : (walk segs).IsChain fun x y => y.addr ≠ x.stop := by
  induction segs using walk_induction with
  | nil => exact .nil
  | first segs g ih => exact .singleton _
  | merge segs g init last ha ih =>
    simp only [List.isChain_append] at ih ⊢
    simpa [MergedRange.grow] using ih
  | fresh segs g init last ha ih =>
    exact List.isChain_append.mpr ⟨ih, .singleton _, by simpa [Segment.range] using ha⟩

/-! ### No shorter list of ranges has the same bytes (R168) -/

/-- The number of runs of consecutive numbers that a list falls into. -/
def runCount : List Nat → Nat
  | [] => 0
  | [_] => 1
  | x :: y :: rest => (if y = x + 1 then 0 else 1) + runCount (y :: rest)

/-- A number before a list starts a run of its own, unless the list goes on from it. -/
theorem runCount_cons (x : Nat) (l : List Nat) :
    runCount (x :: l) = (if l.head? = some (x + 1) then 0 else 1) + runCount l := by
  cases l <;> simp [runCount]

theorem rangeBytes_succ (a n : Nat) : rangeBytes a (n + 1) = a :: rangeBytes (a + 1) n := List.range'_succ

theorem head?_rangeBytes_append (a n : Nat) (l : List Nat) :
    (rangeBytes a n ++ l).head? = if n = 0 then l.head? else some a := by
  cases n <;> simp [rangeBytes, List.range'_succ]

/-- A range is one run, which the bytes after it may go on from. -/
theorem runCount_rangeBytes_append (a n : Nat) (l : List Nat) :
    runCount (rangeBytes a (n + 1) ++ l) = (if l.head? = some (a + n + 1) then 0 else 1) + runCount l := by
  induction n generalizing a with
  | zero => exact runCount_cons a l
  | succ n ih =>
    rw [rangeBytes_succ, List.cons_append, runCount_cons, ih (a + 1), head?_rangeBytes_append]
    simp [Nat.add_assoc, Nat.add_comm 1]

/-- A list of ranges has at least as many ranges as its bytes have runs. -/
theorem runCount_coveredBytes_le (rs : List MergedRange) : runCount (coveredBytes rs) ≤ rs.length := by
  induction rs with
  | nil => rfl
  | cons r rs ih =>
    change runCount (rangeBytes r.addr r.len ++ coveredBytes rs) ≤ rs.length + 1
    cases r.len with
    | zero => exact Nat.le_succ_of_le ih
    | succ n =>
      rw [runCount_rangeBytes_append]
      split_ifs <;> omega

/-- Where no range is empty and no two consecutive ones are adjacent, each range is a run of its own. -/
theorem runCount_coveredBytes (rs : List MergedRange) (hpos : ∀ r ∈ rs, 0 < r.len)
    (hchain : rs.IsChain fun x y => y.addr ≠ x.stop) : runCount (coveredBytes rs) = rs.length := by
  induction rs with
  | nil => rfl
  | cons r rs ih =>
    obtain ⟨hr, hrs⟩ := List.forall_mem_cons.mp hpos
    obtain ⟨hnext, hchain⟩ := List.isChain_cons.mp hchain
    obtain ⟨n, hn⟩ := Nat.exists_eq_add_one.mpr hr
    have hbreak : (coveredBytes rs).head? ≠ some (r.addr + n + 1) := by
      cases rs with
      | nil => simp [coveredBytes]
      | cons y ys =>
        have hy : 0 < y.len := hrs y List.mem_cons_self
        change (rangeBytes y.addr y.len ++ coveredBytes ys).head? ≠ _
        rw [head?_rangeBytes_append, if_neg hy.ne', add_assoc, ← hn]
        exact Option.some_injective _ |>.ne (hnext y rfl)
    change runCount (rangeBytes r.addr r.len ++ coveredBytes rs) = _
    rw [hn, runCount_rangeBytes_append, if_neg hbreak, ih hrs hchain, List.length_cons, add_comm]

/-- Settles O59: the bytes of the region fall into as many runs as the walk has ranges. -/
theorem walkIsMinimal : Obligations.WalkIsMinimal := by
  intro segs
  refine ⟨fun i x y hx hy => ?apart, coveredBytes_walk segs, fun hpos rs hrs => ?minimal⟩
  case apart =>
    obtain ⟨hi, rfl⟩ := List.getElem?_eq_some_iff.mp hy
    obtain ⟨_, rfl⟩ := List.getElem?_eq_some_iff.mp hx
    exact List.isChain_iff_getElem.mp (walk_isChain_not_adjacent segs) i hi
  case minimal =>
    have hranges : ∀ r ∈ walk segs, 0 < r.len :=
      walk_forall segs hpos fun _ _ _ hr _ => Nat.add_pos_left hr _
    calc (walk segs).length
        = runCount (coveredBytes (walk segs)) :=
          (runCount_coveredBytes _ hranges (walk_isChain_not_adjacent segs)).symm
      _ = runCount (coveredBytes rs) := by rw [coveredBytes_walk, ← hrs]; rfl
      _ ≤ rs.length := runCount_coveredBytes_le rs

/-! ### Runs of commands (30_encoding.md R71) -/

/-- The commands `is`, executed one after another from the first state, add the responses `fs`, one each, and end in the
last state. `Runs.execAll` and `exists_runs` tie it to `execAll`. -/
inductive Runs : List Instr → State → List InFlight → State → Prop
  | nil (s : State) : Runs [] s [] s
  | cons {i : Instr} {is : List Instr} {s t u : State} {f : InFlight} {fs : List InFlight}
      (hexec : exec i s = .next t) (hbuf : t.rspBuf = s.rspBuf ++ [f]) (hrest : Runs is t fs u) :
      Runs (i :: is) s (f :: fs) u

theorem exists_runs (is : List Instr) (s : State) : ∃ fs t, Runs is s fs t := by
  induction is generalizing s with
  | nil => exact ⟨_, _, .nil s⟩
  | cons i is ih =>
    obtain ⟨t, hexec, f, hbuf, _⟩ := exec_answersAs i s
    obtain ⟨fs, u, hrest⟩ := ih t
    exact ⟨_, _, .cons hexec hbuf hrest⟩

section
variable {is : List Instr} {s t : State} {fs : List InFlight}

theorem Runs.execAll (h : Runs is s fs t) : execAll is s = .next t := by
  induction h with
  | nil => rfl
  | cons hexec _ _ ih => simp only [Machine.execAll, hexec, ih]

theorem Runs.rspBuf (h : Runs is s fs t) : t.rspBuf = s.rspBuf ++ fs := by
  induction h with
  | nil => simp
  | cons _ hbuf _ ih => rw [ih, hbuf, List.append_assoc, List.singleton_append]

/-- What stands in the response buffer behind the earlier responses is the run's. -/
theorem Runs.rspBuf_drop (h : Runs is s fs t) : t.rspBuf.drop s.rspBuf.length = fs := by
  rw [h.rspBuf, List.drop_left]

theorem Runs.concat (h : Runs is s fs t) {i : Instr} {u : State} {f : InFlight} (hexec : exec i t = .next u)
    (hbuf : u.rspBuf = t.rspBuf ++ [f]) : Runs (is ++ [i]) s (fs ++ [f]) u := by
  induction h with
  | nil => exact .cons hexec hbuf (.nil u)
  | cons hexec' hbuf' _ ih => exact .cons hexec' hbuf' (ih hexec hbuf)

theorem exec_portsKept {i : Instr} (h : exec i s = .next t) : PortsKept s t := by
  obtain ⟨t', h', _, _, _, hkept⟩ := exec_answersAs i s
  obtain rfl := Host.Outcome.next.inj (h.symm.trans h')
  exact hkept

theorem Runs.portsKept (h : Runs is s fs t) : PortsKept s t := by
  induction h with
  | nil => exact ⟨rfl, rfl, rfl, rfl⟩
  | cons hexec _ _ ih =>
    obtain ⟨hp, hs, hd, he⟩ := ih
    obtain ⟨hp', hs', hd', he'⟩ := exec_portsKept hexec
    exact ⟨hp.trans hp', hs.trans hs', hd.trans hd', he.trans he'⟩

/-- OUT after a run is OUT before it with the run's writes. -/
theorem Runs.out (h : Runs is s fs t) : t.out = applyWrites s.params s.out (inFlightWrites fs) := by
  obtain ⟨hparams, hsettled, _⟩ := h.portsKept
  rw [State.out, hparams, hsettled, h.rspBuf, inFlightWrites_append, applyWrites_append, State.out]

/-- Commands to one context leave the others' registers alone (10_state.md R25). -/
theorem Runs.otherContextsKept (h : Runs is s fs t) {c : CtxNum} (hc : ∀ i ∈ is, instrContext i = some c) :
    OtherContextsKept c s t := by
  intro d hd
  induction h with
  | nil => rfl
  | cons hexec _ _ ih =>
    obtain ⟨hi, his⟩ := List.forall_mem_cons.mp hc
    rw [ih his, exec_context_of_ne _ _ _ d hexec (by simp [hi, hd.symm])]

end

/-! ### One context's commands, alone and interleaved (R160, 60_exceptions.md R212) -/

/-- A coalescer operation run at two values of the draw counter: equal but for the free values it draws. `n` is the
counter of the second, and where that draws none the two write the same. -/
structure CoResult.Agrees (x x' : CoResult) (n : Nat) : Prop where
  regs : x.regs = x'.regs
  entry : (x.write.map fun w => (w.ctx, w.index)) = x'.write.map fun w => (w.ctx, w.index)
  draws : n ≤ x'.draws
  write : x'.draws = n → x.write = x'.write

section
variable (c : CtxNum) (r : CoRegs) (n n' : Nat)

theorem closeRange_agrees (isLast : Bool) : (closeRange isLast c r n).Agrees (closeRange isLast c r n') n' := by
  unfold closeRange closedEntry
  by_cases hroom : r.coCount.toNat < r.cfgMaxout.toNat
  · simp only [hroom, if_true]
    split_ifs with hundef
    · exact ⟨rfl, rfl, by simp, fun h => absurd h (by simp)⟩
    · exact ⟨rfl, rfl, le_rfl, fun _ => rfl⟩
  · simp only [hroom, if_false]
    exact ⟨rfl, rfl, le_rfl, fun _ => rfl⟩

theorem acceptSegment_agrees (a : Word64) (l : Word32) :
    (acceptSegment c a l r n).Agrees (acceptSegment c a l r n') n' := by
  cases hv : r.accV with
  | false =>
    simp only [acceptSegment_first c a l r _ hv]
    exact ⟨rfl, rfl, le_rfl, fun _ => rfl⟩
  | true =>
    by_cases ha : a.toNat = accEnd r
    · simp only [acceptSegment_merge c a l r _ hv ha]
      exact ⟨rfl, rfl, le_rfl, fun _ => rfl⟩
    · simp only [acceptSegment_close c a l r _ hv ha]
      obtain ⟨_, hentry, hdraws, hwrite⟩ := closeRange_agrees c (closingRegs a l r) n n' false
      exact ⟨rfl, hentry, hdraws, hwrite⟩

theorem finishList_agrees : (finishList c r n).Agrees (finishList c r n') n' := by
  unfold finishList
  split_ifs
  · exact closeRange_agrees c r n n' true
  · exact ⟨rfl, rfl, le_rfl, fun _ => rfl⟩

end

/-- A command executed in two states, from `s` to `t` and from `s'` to `t'`: context `c` ends alike, the responses are
equal, and so are the writes, but for the free values that the second draws. -/
def AnswersAlike (c : CtxNum) (s t s' t' : State) : Prop :=
  ∃ f f', t.rspBuf = s.rspBuf ++ [f] ∧ t'.rspBuf = s'.rspBuf ++ [f'] ∧ t.context c = t'.context c ∧
    f.shape = f'.shape ∧ s'.draws ≤ t'.draws ∧ (t'.draws = s'.draws → f = f')

section
variable {c : CtxNum} {s t s' t' : State}

theorem AnswersAlike.raiseIllegal (op : OpByte) (k : IllegalCause) (hctx : s.context c = s'.context c) :
    AnswersAlike c s (raiseIllegal op k s) s' (raiseIllegal op k s') :=
  ⟨_, _, rfl, rfl, hctx, rfl, le_rfl, fun _ => rfl⟩

theorem AnswersAlike.complete {x x' : CoResult} (q : Response) (h : x.Agrees x' s'.draws) :
    AnswersAlike c s (s.complete c x q) s' (s'.complete c x' q) := by
  obtain ⟨hregs, hentry, hdraws, hwrite⟩ := h
  refine ⟨_, _, rfl, rfl, ?_, ?_, hdraws, fun h => ?_⟩
  · rw [State.complete_context_self, State.complete_context_self, hregs]
  · simp only [InFlight.shape, hentry]
  · rw [hwrite h]

/-- Causes 3 and 4 depend on the parameters and on context `c` alone (30_encoding.md R77). -/
theorem AnswersAlike.withContext (o : Opcode) (hparams : s.params = s'.params) (hctx : s.context c = s'.context c)
    (h : AnswersAlike c s t s' t') : AnswersAlike c s (withContext o c s t) s' (withContext o c s' t') := by
  unfold Machine.withContext
  rw [hparams]
  split_ifs
  · exact h
  · exact .raiseIllegal _ _ hctx

theorem AnswersAlike.withOpenContext (o : Opcode) (hparams : s.params = s'.params) (hctx : s.context c = s'.context c)
    (h : AnswersAlike c s t s' t') : AnswersAlike c s (withOpenContext o c s t) s' (withOpenContext o c s' t') := by
  refine .withContext o hparams hctx ?_
  rw [hctx]
  split_ifs
  · exact h
  · exact .raiseIllegal _ _ hctx

/-- A command to context `c` sees of the state only the parameters and that context, but for the free values. -/
theorem exec_answersAlike {i : Instr} (hi : instrContext i = some c) (hparams : s.params = s'.params)
    (hctx : s.context c = s'.context c) (hexec : exec i s = .next t) (hexec' : exec i s' = .next t') :
    AnswersAlike c s t s' t' := by
  cases i with
  | coStart _ m off wlen ps =>
    obtain rfl := Option.some.inj hi
    obtain rfl := Host.Outcome.next.inj hexec
    obtain rfl := Host.Outcome.next.inj hexec'
    exact .withContext .coStart hparams hctx (.complete startResponse ⟨rfl, rfl, le_rfl, fun _ => rfl⟩)
  | coSeg d a l =>
    obtain rfl := Option.some.inj hi
    obtain rfl := Host.Outcome.next.inj hexec
    obtain rfl := Host.Outcome.next.inj hexec'
    have hagrees := acceptSegment_agrees d (s'.context d) s.draws s'.draws a l
    refine .withOpenContext .coSeg hparams hctx ?_
    rw [hctx, hagrees.regs]
    exact .complete _ hagrees
  | coEnd d =>
    obtain rfl := Option.some.inj hi
    obtain rfl := Host.Outcome.next.inj hexec
    obtain rfl := Host.Outcome.next.inj hexec'
    have hagrees := finishList_agrees d (s'.context d) s.draws s'.draws
    refine .withOpenContext .coEnd hparams hctx ?_
    rw [hctx, hagrees.regs]
    exact .complete _ ⟨rfl, hagrees.entry, hagrees.draws, hagrees.write⟩
  | _ => cases hi

end

/-- The responses of a run that answer the commands to context `c`. -/
def repliesTo (c : CtxNum) (is : List Instr) (fs : List InFlight) : List InFlight :=
  ((is.zip fs).filter fun x => decide (instrContext x.1 = some c)).map fun x => x.2

section
variable {c : CtxNum} {i : Instr} (is : List Instr) (f : InFlight) (fs : List InFlight)

theorem repliesTo_cons_self (h : instrContext i = some c) :
    repliesTo c (i :: is) (f :: fs) = f :: repliesTo c is fs := by
  simp [repliesTo, h]

theorem repliesTo_cons_other (h : instrContext i ≠ some c) : repliesTo c (i :: is) (f :: fs) = repliesTo c is fs := by
  simp [repliesTo, h]

theorem commandsOf_cons_self (h : instrContext i = some c) : commandsOf c (i :: is) = i :: commandsOf c is := by
  simp [commandsOf, h]

theorem commandsOf_cons_other (h : instrContext i ≠ some c) : commandsOf c (i :: is) = commandsOf c is := by
  simp [commandsOf, h]

end

/-- Two runs, of commands to any contexts from `s` and of those to context `c` alone from `s'`, where the two states
agree in the parameters and in context `c`. -/
theorem Runs.alone {c : CtxNum} {is : List Instr} {s s' t : State} {fs : List InFlight} (h : Runs is s fs t)
    (hparams : s.params = s'.params) (hctx : s.context c = s'.context c) :
    ∃ fs' t', Runs (commandsOf c is) s' fs' t' ∧ t.context c = t'.context c ∧
      (repliesTo c is fs).map InFlight.shape = fs'.map InFlight.shape ∧ s'.draws ≤ t'.draws ∧
      (t'.draws = s'.draws → repliesTo c is fs = fs') := by
  induction h generalizing s' with
  | nil => exact ⟨_, _, .nil s', hctx, rfl, le_rfl, fun _ => rfl⟩
  | @cons i is s t u f fs hexec hbuf _ ih =>
    obtain ⟨hp, _⟩ := exec_portsKept hexec
    by_cases hi : instrContext i = some c
    · obtain ⟨t', hexec'⟩ := exec_next i s'
      obtain ⟨hp', _⟩ := exec_portsKept hexec'
      obtain ⟨g, f', hbuf', hbuf'', hctx', hshape, hdraws, hsame⟩ := exec_answersAlike hi hparams hctx hexec hexec'
      obtain rfl : f = g := by simpa using hbuf.symm.trans hbuf'
      obtain ⟨fs', u', hruns, hend, hshapes, hdraws', hsame'⟩ := ih (by rw [hp, hp', hparams]) hctx'
      rw [repliesTo_cons_self is f fs hi, commandsOf_cons_self is hi]
      refine ⟨f' :: fs', u', .cons hexec' hbuf'' hruns, hend, ?_, hdraws.trans hdraws', fun hnone => ?_⟩
      · rw [List.map_cons, List.map_cons, hshape, hshapes]
      · rw [hsame (by omega), hsame' (by omega)]
    · rw [repliesTo_cons_other is f fs hi, commandsOf_cons_other is hi]
      exact ih (hp.trans hparams) ((exec_context_of_ne i s t c hexec hi).trans hctx)

/-- Settles O54, by induction over the interleaved run. -/
theorem contextsDoNotInterfere : Obligations.ContextsDoNotInterfere := by
  intro c is s
  obtain ⟨fs, t, hmixed⟩ := exists_runs is s
  obtain ⟨fs', u, halone, hctx, hshape, _, hsame⟩ := hmixed.alone (c := c) rfl rfl
  refine ⟨t, u, hmixed.execAll, halone.execAll, hctx, ?_⟩
  rw [hmixed.rspBuf_drop, halone.rspBuf_drop]
  exact ⟨hshape, hsame⟩

/-! ### The entries of COALESCE (R153) -/

/-- A range as an entry with no trim. -/
def MergedRange.entry (r : MergedRange) : ExactEntry := ⟨r.addr, r.len⟩

/-- Range number `k` of the walk with the first trim, which is entry 0's alone. -/
def trimmedEntry (off : Word64) (k : Nat) (r : MergedRange) : ExactEntry :=
  if k = 0 then trimFirst off r.entry else r.entry

/-- The entries of the first `maxOut` ranges with the first trim, as they are before the last range is closed. -/
def firstTrimmed (off : Word64) (maxOut : Nat) (rs : List MergedRange) : List ExactEntry :=
  ((rs.take maxOut).map MergedRange.entry).modifyHead (trimFirst off)

section
variable (off wlen : Word64) (ps : PageShift) (maxOut : Nat)

/-- One more range adds its entry, where it is below `maxOut`. -/
theorem firstTrimmed_concat (rs : List MergedRange) (r : MergedRange) :
    firstTrimmed off maxOut (rs ++ [r]) =
      if rs.length < maxOut then firstTrimmed off maxOut rs ++ [trimmedEntry off rs.length r]
      else firstTrimmed off maxOut rs := by
  split_ifs with hroom
  · cases rs with
    | nil =>
      simp only [List.length_nil] at hroom
      simp [firstTrimmed, trimmedEntry, List.take_of_length_le, Nat.succ_le_of_lt hroom]
    | cons x xs =>
      simp only [List.length_cons] at hroom
      simp [firstTrimmed, trimmedEntry, List.take_of_length_le, hroom.le, Nat.succ_le_of_lt hroom]
  · rw [firstTrimmed, List.take_append_of_le_length (not_lt.mp hroom), firstTrimmed]

theorem firstTrimmed_length (rs : List MergedRange) : (firstTrimmed off maxOut rs).length = min maxOut rs.length := by
  simp [firstTrimmed]

theorem firstTrimmed_getElem? (rs : List MergedRange) (k : Nat) (hk : k < maxOut) :
    (firstTrimmed off maxOut rs)[k]? = rs[k]?.map (trimmedEntry off k) := by
  cases k <;> simp [firstTrimmed, List.getElem?_modifyHead, hk] <;> rfl

variable (segs : List Segment)

/-- With more ranges than `maxOut` no entry has the last trim (R163). -/
theorem coalesceEntries_of_overflow (h : maxOut < (walk segs).length) :
    coalesceEntries segs off wlen maxOut ps = firstTrimmed off maxOut (walk segs) :=
  if_neg (not_le.mpr h)

theorem coalesceEntries_of_fit (h : (walk segs).length ≤ maxOut) :
    coalesceEntries segs off wlen maxOut ps = (firstTrimmed off maxOut (walk segs)).modifyLast (trimLast off wlen ps) :=
  if_pos h

/-- Where the ranges fit, the last one has the last trim too. -/
theorem coalesceEntries_concat (init : List MergedRange) (last : MergedRange) (hwalk : walk segs = init ++ [last]) :
    coalesceEntries segs off wlen maxOut ps =
      if init.length < maxOut then
        firstTrimmed off maxOut init ++ [trimLast off wlen ps (trimmedEntry off init.length last)]
      else firstTrimmed off maxOut init := by
  have hlen : (walk segs).length = init.length + 1 := by simp [hwalk]
  split_ifs with hroom
  · rw [coalesceEntries_of_fit _ _ _ _ _ (by omega), hwalk, firstTrimmed_concat, if_pos hroom, List.modifyLast_concat]
  · rw [coalesceEntries_of_overflow _ _ _ _ _ (by omega), hwalk, firstTrimmed_concat, if_neg hroom]

theorem coalesceEntries_of_empty (h : walk segs = []) : coalesceEntries segs off wlen maxOut ps = [] := by
  simp [coalesceEntries, h]
  rfl

theorem coalesceEntries_length :
    (coalesceEntries segs off wlen maxOut ps).length = min (coalesceTotal segs) maxOut := by
  unfold coalesceTotal
  rcases List.eq_nil_or_concat' (walk segs) with hnil | ⟨init, last, hwalk⟩
  · simp [coalesceEntries_of_empty _ _ _ _ _ hnil, hnil]
  · rw [coalesceEntries_concat _ _ _ _ _ _ _ hwalk, hwalk]
    split_ifs <;> simp [firstTrimmed_length] <;> omega

end

/-! ### The conditions that `CO_UNDEF` marks (R155 U1 to U3, 10_state.md R27) -/

/-- None of the conditions U1, U2 and U3 holds of the window and the segments. -/
structure Unmarked (wlen : Word64) (segs : List Segment) : Prop where
  window : wlen ≠ 0#64
  ascending : segs.IsChain fun x y => x.range.stop ≤ y.addr.toNat
  inRange : ∀ g ∈ segs, g.range.stop ≤ 2 ^ 64
  short : ∀ r ∈ walk segs, r.len < 2 ^ 64

theorem undefU2_eq_false_iff (segs : List Segment) :
    undefU2 segs = false ↔ segs.IsChain fun x y => x.range.stop ≤ y.addr.toNat := by
  induction segs with
  | nil => simp [undefU2]
  | cons x xs ih =>
    cases xs with
    | nil => simp [undefU2]
    | cons y ys =>
      rw [List.isChain_cons_cons, ← ih]
      simp [undefU2, Segment.range, MergedRange.stop]

theorem undefU3_eq_false_iff (segs : List Segment) :
    undefU3 segs = false ↔ (∀ g ∈ segs, g.range.stop ≤ 2 ^ 64) ∧ ∀ r ∈ walk segs, r.len < 2 ^ 64 := by
  simp [undefU3, Segment.range, MergedRange.stop]

/-- Defined input has no condition of R155: none of U1 to U3, and no trim that leaves the 64 bits of its field. -/
theorem undefinedInput_eq_false_iff (segs : List Segment) (off wlen : Word64) (maxOut : Nat) (ps : PageShift) :
    undefinedInput segs off wlen maxOut ps = false ↔
      Unmarked wlen segs ∧ ∀ e ∈ coalesceEntries segs off wlen maxOut ps, 0 ≤ e.len ∧ e.addr < 2 ^ 64 := by
  have hmarks : (undefU1 wlen = false ∧ undefU2 segs = false) ∧ undefU3 segs = false ↔ Unmarked wlen segs := by
    rw [undefU2_eq_false_iff, undefU3_eq_false_iff]
    exact ⟨fun ⟨⟨h1, h2⟩, h3, h4⟩ => ⟨by simpa [undefU1] using h1, h2, h3, h4⟩,
      fun ⟨h1, h2, h3, h4⟩ => ⟨⟨by simpa [undefU1] using h1, h2⟩, h3, h4⟩⟩
  simp only [undefinedInput, Bool.or_eq_false_iff, hmarks]
  simp [undefTrim]

section
variable {wlen : Word64} {segs : List Segment} {g : Segment} (h : Unmarked wlen (segs ++ [g]))
include h

/-- One more segment takes no mark away: an extended range is no shorter than it was. -/
theorem Unmarked.of_concat : Unmarked wlen segs := by
  obtain ⟨hwindow, hascending, hinRange, hshort⟩ := h
  obtain ⟨hascending, _, _⟩ := List.isChain_append.mp hascending
  obtain ⟨hinRange, _⟩ := List.forall_mem_append.mp hinRange
  refine ⟨hwindow, hascending, hinRange, fun r hr => ?short⟩
  obtain ⟨init, last, hwalk⟩ := (List.eq_nil_or_concat' (walk segs)).resolve_left (List.ne_nil_of_mem hr)
  by_cases ha : g.addr.toNat = last.stop
  · rw [walk_concat_merge segs g init last hwalk ha] at hshort
    simp only [List.forall_mem_append, List.forall_mem_singleton, MergedRange.grow] at hshort
    obtain ⟨hinit, hlast⟩ := hshort
    rw [hwalk, List.mem_append, List.mem_singleton] at hr
    rcases hr with hr | rfl
    · exact hinit r hr
    · omega
  · rw [walk_concat_open segs g init last hwalk ha, ← hwalk] at hshort
    exact hshort r (List.mem_append_left _ hr)

/-- A segment that marks nothing ends by 2^64. -/
theorem Unmarked.stop_le_of_concat : g.range.stop ≤ 2 ^ 64 := h.inRange g (by simp)

/-- A segment that marks nothing does not start before the end of the open range. -/
theorem Unmarked.le_addr_of_concat {last : MergedRange} (hlast : last ∈ (walk segs).getLast?) :
    last.stop ≤ g.addr.toNat := by
  obtain ⟨_, _, hnext⟩ := List.isChain_append.mp h.ascending
  have hstop := walk_getLast_stop segs
  rw [Option.mem_def.mp hlast, Option.map_some] at hstop
  obtain ⟨x, hx, hxstop⟩ := Option.map_eq_some_iff.mp hstop.symm
  rw [← hxstop]
  exact hnext x hx g rfl

end

/-! ### The writes that hold a list of entries (20_memory.md R51) -/

/-- Write `w` is entry `k` of context `c`; it holds `e`, if the input is `defined` and the fields of `e` are too. -/
structure EntryWritten (c : CtxNum) (defined : Prop) (k : Nat) (e : ExactEntry) (w : OutWrite) : Prop where
  ctx : w.ctx = c
  index : w.index.toNat = k
  contents : defined → 0 ≤ e.len → e.addr < 2 ^ 64 → exact w.addr = e.addr ∧ exact w.len = e.len

/-- The writes `ws` are the entries `es` of context `c`, each once and in order. -/
structure Written (c : CtxNum) (defined : Prop) (es : List ExactEntry) (ws : List OutWrite) : Prop where
  length : ws.length = es.length
  entry : ∀ (k : Nat) (hw : k < ws.length) (he : k < es.length), EntryWritten c defined k es[k] ws[k]

section
variable {c : CtxNum} {P Q : Prop} {es : List ExactEntry} {ws : List OutWrite}

theorem Written.nil : Written c P [] [] := ⟨rfl, by simp⟩

theorem Written.mono (h : Written c P es ws) (hPQ : Q → P) : Written c Q es ws := by
  refine ⟨h.length, fun k hw he => ?_⟩
  obtain ⟨hctx, hindex, hcontents⟩ := h.entry k hw he
  exact ⟨hctx, hindex, fun hQ => hcontents (hPQ hQ)⟩

theorem Written.concat (h : Written c P es ws) {e : ExactEntry} {w : OutWrite} (hw : EntryWritten c P es.length e w) :
    Written c P (es ++ [e]) (ws ++ [w]) := by
  obtain ⟨hlen, hentry⟩ := h
  refine ⟨by simp [hlen], fun k hkw hke => ?_⟩
  by_cases hk : k < es.length
  · rw [List.getElem_append_left hk, List.getElem_append_left (hlen ▸ hk)]
    exact hentry k _ _
  · obtain rfl : k = es.length := by
      rw [List.length_append, List.length_singleton] at hke
      omega
    simpa [List.getElem_append_right, hlen] using hw

/-! ### What such writes leave in OUT (R53, R56) -/

variable (h : Written c P es ws) (p : Config.Params) (m : Memory)
include h

theorem Written.ctx_eq (k : Nat) (hk : k < ws.length) : ws[k].ctx = c := (h.entry k hk (h.length ▸ hk)).ctx

theorem Written.index_toNat (k : Nat) (hk : k < ws.length) : ws[k].index.toNat = k :=
  (h.entry k hk (h.length ▸ hk)).index

theorem Written.index_eq (k : Nat) (hk : k < ws.length) : ws[k].index = BitVec.ofNat 32 k := by
  simpa using congrArg (BitVec.ofNat 32) (h.index_toNat k hk)

/-- The indices written are the first ones, in order. -/
theorem Written.map_index : (ws.map fun w => w.index.toNat) = List.range es.length := by
  refine List.ext_getElem (by simp [h.length]) fun k hk _ => ?_
  have hk : k < ws.length := by simpa using hk
  simp [h.index_toNat k hk]

/-- Bytes outside those entries keep what they held. -/
theorem Written.read_outside (a : Nat) (ha : ∀ k < es.length, ¬ inEntry p c (BitVec.ofNat 32 k) a) :
    (applyWrites p m ws).read a = m.read a := by
  refine applyWrites_read_outside p ws m a fun w hw => ?_
  obtain ⟨k, hk, rfl⟩ := List.mem_iff_getElem.mp hw
  rw [h.ctx_eq k hk, h.index_eq k hk]
  exact (not_and_or.mp (ha k (h.length ▸ hk))).imp not_le.mp not_lt.mp

/-- Each entry reads back as its write, which no later write overlaps. -/
theorem Written.readEntry (k : Nat) (hk : k < ws.length) :
    readEntry p (applyWrites p m ws) c (BitVec.ofNat 32 k) = some (ws[k].addr, ws[k].len) := by
  have hsplit : applyWrites p m ws =
      applyWrites p (applyWrite p (applyWrites p m (ws.take k)) ws[k]) (ws.drop (k + 1)) := by
    conv_lhs => rw [← List.take_append_drop k ws, applyWrites_append, List.drop_eq_getElem_cons hk]
    rfl
  rw [hsplit, readEntry_applyWrites_disjoint]
  · rw [← h.index_eq k hk, ← h.ctx_eq k hk, readEntry_applyWrite_self]
  · intro w hw
    obtain ⟨j, hj, rfl⟩ := List.mem_iff_getElem.mp hw
    rw [List.getElem_drop]
    rw [List.length_drop] at hj
    right
    rw [← h.index_eq k hk, entryAddr, entryAddr, h.ctx_eq, h.index_toNat, h.index_toNat]
    omega

end

/-! ### The registers of a transaction follow the walk (R151, R157) -/

/-- The operands of `CO_START`, which its context keeps until the transaction ends (R156). -/
structure StartOperands where
  maxOut : Word32
  off : Word64
  wlen : Word64
  ps : PageShift

/-- The operands that a context holds. -/
def CoRegs.operands (r : CoRegs) : StartOperands := ⟨r.cfgMaxout, r.cfgWoff, r.cfgWlen, r.cfgPshift⟩

/-- The open range of a context, exact; none before the first segment. -/
def CoRegs.range? (r : CoRegs) : Option MergedRange :=
  if r.accV then some ⟨r.accAddr.toNat, accLength r⟩ else none

section
variable (r : CoRegs)

theorem CoRegs.range?_eq_none_iff : r.range? = none ↔ r.accV = false := by
  simp [CoRegs.range?]

theorem CoRegs.range?_eq_some_iff (last : MergedRange) :
    r.range? = some last ↔ r.accV = true ∧ r.accAddr.toNat = last.addr ∧ accLength r = last.len := by
  obtain ⟨addr, len⟩ := last
  simp [CoRegs.range?]

@[simp] theorem CoRegs.range?_openRange (g : Segment) : (r.openRange g.addr g.len).range? = some g.range := by
  have hlen := g.len.isLt
  rw [CoRegs.range?_eq_some_iff]
  refine ⟨rfl, rfl, ?_⟩
  simp only [accLength, CoRegs.openRange_accLen, CoRegs.openRange_accCarry, BitVec.toNat_setWidth, Segment.range]
  simp
  omega

theorem acceptSegment_operands (c : CtxNum) (a : Word64) (l : Word32) (n : Nat) :
    (acceptSegment c a l r n).regs.operands = r.operands := by
  rcases acceptSegment_regs_cases c a l r n with ⟨u, k, e⟩ | ⟨_, len, e⟩ <;> rw [e] <;> rfl

end

/-- The entry of range number `k` as the closing of the last range, or of another one, leaves it (R153). -/
def closingEntry (o : StartOperands) (isLast : Bool) (k : Nat) (last : MergedRange) : ExactEntry :=
  if isLast then trimLast o.off o.wlen o.ps (trimmedEntry o.off k last) else trimmedEntry o.off k last

/-- `Close` computes of the open range the exact entry of R153. -/
theorem closedEntry_eq {r : CoRegs} {last : MergedRange} (hrange : r.range? = some last) (hshort : last.len < 2 ^ 64)
    {k : Nat} (hcount : r.coCount.toNat = 0 ↔ k = 0) (isLast : Bool) :
    (⟨closedAddr r, closedLen isLast r⟩ : ExactEntry) = closingEntry r.operands isLast k last := by
  obtain ⟨_, haddr, hlen⟩ := (r.range?_eq_some_iff last).mp hrange
  have hacc : r.accLen.toNat = last.len := by
    unfold accLength at hlen
    split_ifs at hlen <;> omega
  rw [closedAddr_eq, closedLen_eq, haddr, hacc]
  by_cases hk : k = 0 <;> cases isLast <;>
    simp [closingEntry, trimmedEntry, trimFirst, trimLast, MergedRange.entry, firstTrim, lastTrim, exact,
      CoRegs.operands, hcount, hk]

/-- `Close` of range number `k`, which `CO_COUNT` holds up to saturation, adds its entry where it is below `max_out`. -/
theorem Written.closeRange {c : CtxNum} {P : Prop} {o : StartOperands} {rs : List MergedRange} {last : MergedRange}
    {ws : List OutWrite} {r : CoRegs} (h : Written c P (firstTrimmed o.off o.maxOut.toNat rs) ws) (ho : r.operands = o)
    (hrange : r.range? = some last) (hcount : r.coCount.toNat = min rs.length (2 ^ 32 - 1))
    (hshort : P → last.len < 2 ^ 64) (hundef : P → r.coUndef = false) (isLast : Bool) (n : Nat) :
    Written c P
      (if rs.length < o.maxOut.toNat then
        firstTrimmed o.off o.maxOut.toNat rs ++ [closingEntry o isLast rs.length last]
      else firstTrimmed o.off o.maxOut.toNat rs)
      (ws ++ (Machine.closeRange isLast c r n).write.toList) := by
  have hmax := o.maxOut.isLt
  have hmaxOut : r.cfgMaxout.toNat = o.maxOut.toNat := by rw [← ho, CoRegs.operands]
  by_cases hroom : rs.length < o.maxOut.toNat
  · obtain ⟨w, hwrite, hctx, hindex, hcontents⟩ := closeRange_of_room isLast c r n (by omega)
    rw [if_pos hroom, hwrite]
    refine h.concat ⟨hctx, ?index, fun hP hlen haddr => ?contents⟩
    case index =>
      rw [hindex, hcount, firstTrimmed_length]
      omega
    case contents =>
      rw [← ho, ← closedEntry_eq hrange (hshort hP) (by omega)] at hlen haddr ⊢
      obtain ⟨_, hA, hL⟩ := hcontents (hundef hP) hlen haddr
      exact ⟨hA, hL⟩
  · obtain ⟨hwrite, _⟩ := closeRange_of_full isLast c r n (by omega)
    rw [if_neg hroom, hwrite, Option.toList_none, List.append_nil]
    exact h

/-- The registers `r` of context `c` and the writes `ws` so far are those of a transaction with operands `o` after the
segments `segs`: the open range is the last one of the walk, the others are counted, up to the saturation of
`CO_COUNT`, and written. -/
structure Follows (c : CtxNum) (o : StartOperands) (segs : List Segment) (r : CoRegs) (ws : List OutWrite) : Prop where
  busy : r.coBusy = true
  operands : r.operands = o
  range : r.range? = (walk segs).getLast?
  count : r.coCount.toNat = min (walk segs).dropLast.length (2 ^ 32 - 1)
  undef : Unmarked o.wlen segs → r.coUndef = false
  written : Written c (Unmarked o.wlen segs) (firstTrimmed o.off o.maxOut.toNat (walk segs).dropLast) ws

theorem follows_startRegs (c : CtxNum) (m : Word32) (off wlen : Word64) (ps : PageShift) :
    Follows c ⟨m, off, wlen, ps⟩ [] (startRegs m off wlen ps) [] where
  busy := rfl
  operands := rfl
  range := rfl
  count := rfl
  undef h := by simpa [startRegs] using h.window
  written := by simpa [firstTrimmed] using Written.nil

section
variable {c : CtxNum} {o : StartOperands} {segs : List Segment} {r : CoRegs} {ws : List OutWrite}
  (h : Follows c o segs r ws) (g : Segment) (n : Nat)
include h

/-- The first segment is the open range, and nothing is closed. -/
theorem Follows.accept_first (hwalk : walk segs = []) :
    Follows c o (segs ++ [g]) (acceptSegment c g.addr g.len r n).regs
      (ws ++ (acceptSegment c g.addr g.len r n).write.toList) := by
  obtain ⟨hbusy, hoperands, hrange, hcount, hundef, hwritten⟩ := h
  rw [hwalk] at hrange hcount hwritten
  have hregs := acceptSegment_first c g.addr g.len r n (r.range?_eq_none_iff.mp hrange)
  have hwalk' := walk_concat_first segs g hwalk
  refine ⟨by simpa using hbusy, by rw [acceptSegment_operands, hoperands], ?range, ?count, fun hun => ?undef,
    ?written⟩ <;> rw [hregs]
  case range => rw [hwalk', CoRegs.range?_openRange, List.getLast?_singleton]
  case count =>
    rw [hwalk']
    exact hcount
  case undef =>
    have hend := hun.stop_le_of_concat
    simpa [hundef hun.of_concat, MergedRange.stop, Segment.range] using hend
  case written =>
    rw [hwalk', Option.toList_none, List.append_nil]
    exact hwritten.mono fun hun => hun.of_concat

variable {init : List MergedRange} {last : MergedRange} (hwalk : walk segs = init ++ [last])
include hwalk

/-- With a range open, `CO_COUNT` and the writes are those of the ranges before it. -/
theorem Follows.of_open :
    r.range? = some last ∧ r.accV = true ∧ accEnd r = last.stop ∧
      r.coCount.toNat = min init.length (2 ^ 32 - 1) ∧
      Written c (Unmarked o.wlen segs) (firstTrimmed o.off o.maxOut.toNat init) ws := by
  obtain ⟨_, _, hrange, hcount, _, hwritten⟩ := h
  rw [hwalk, List.getLast?_concat] at hrange
  rw [hwalk, List.dropLast_concat] at hcount hwritten
  obtain ⟨hv, haddr, hlen⟩ := (r.range?_eq_some_iff last).mp hrange
  exact ⟨hrange, hv, by rw [accEnd, haddr, hlen, MergedRange.stop], hcount, hwritten⟩

/-- An adjacent segment extends the open range: its exact length has at most 65 bits. -/
theorem Follows.accept_merge (ha : g.addr.toNat = last.stop) :
    Follows c o (segs ++ [g]) (acceptSegment c g.addr g.len r n).regs
      (ws ++ (acceptSegment c g.addr g.len r n).write.toList) := by
  obtain ⟨hrange, hv, hend, hcount, hwritten⟩ := h.of_open hwalk
  obtain ⟨hbusy, hoperands, _, _, hundef, _⟩ := h
  obtain ⟨_, haddr, hlen⟩ := (r.range?_eq_some_iff last).mp hrange
  have hregs := acceptSegment_merge c g.addr g.len r n hv (ha.trans hend.symm)
  have hwalk' := walk_concat_merge segs g init last hwalk ha
  refine ⟨by simpa using hbusy, by rw [acceptSegment_operands, hoperands], ?range, ?count, fun hun => ?undef,
    ?written⟩ <;> rw [hregs]
  case range =>
    have hbound : accLength r + g.len.toNat < 2 ^ 65 := by
      have := g.addr.isLt
      have := g.len.isLt
      unfold MergedRange.stop at ha
      omega
    rw [hwalk', List.getLast?_concat, CoRegs.range?_eq_some_iff, accLength_withLength _ _ hbound]
    exact ⟨hv, haddr, by rw [hlen]; rfl⟩
  case count =>
    rw [hwalk', List.dropLast_concat]
    exact hcount
  case undef =>
    have hshort := hun.short (last.grow g) (by simp [hwalk'])
    have hend := hun.stop_le_of_concat
    simp only [MergedRange.stop, Segment.range, MergedRange.grow, ← hlen] at hend hshort
    simp only [CoRegs.withLength_coUndef, CoRegs.markUndef_coUndef, hundef hun.of_concat, Bool.false_or,
      Bool.or_eq_false_iff, decide_eq_false_iff_not]
    omega
  case written =>
    rw [hwalk', List.dropLast_concat, Option.toList_none, List.append_nil]
    exact hwritten.mono fun hun => hun.of_concat

/-- Any other segment closes the open range, which is not the last one. -/
theorem Follows.accept_close (ha : g.addr.toNat ≠ last.stop) :
    Follows c o (segs ++ [g]) (acceptSegment c g.addr g.len r n).regs
      (ws ++ (acceptSegment c g.addr g.len r n).write.toList) := by
  obtain ⟨hrange, hv, hend, hcount, hwritten⟩ := h.of_open hwalk
  obtain ⟨hbusy, hoperands, _, _, hundef, _⟩ := h
  have hregs := acceptSegment_close c g.addr g.len r n hv (hend ▸ ha)
  have hwalk' := walk_concat_open segs g init last hwalk ha
  have hmarks (hun : Unmarked o.wlen (segs ++ [g])) : (closingRegs g.addr g.len r).coUndef = false := by
    have hstop := hun.stop_le_of_concat
    have hnext := hun.le_addr_of_concat (last := last) (by simp [hwalk])
    simp only [MergedRange.stop, Segment.range] at hstop
    simp only [closingRegs, CoRegs.markUndef_coUndef, hundef hun.of_concat, hend, Bool.false_or, Bool.or_eq_false_iff,
      decide_eq_false_iff_not]
    omega
  refine ⟨by simpa using hbusy, by rw [acceptSegment_operands, hoperands], ?range, ?count, fun hun => ?undef,
    ?written⟩ <;> rw [hregs]
  case range => rw [hwalk', List.getLast?_concat, CoRegs.range?_openRange]
  case count =>
    rw [hwalk', List.dropLast_concat, CoRegs.openRange_coCount, bumpCount_toNat, nextCount, hcount, List.length_append,
      List.length_singleton]
    omega
  case undef => exact hmarks hun
  case written =>
    rw [hwalk', List.dropLast_concat, firstTrimmed_concat]
    exact (hwritten.mono fun hun => hun.of_concat).closeRange (r := closingRegs g.addr g.len r) hoperands hrange hcount
      (fun hun => hun.of_concat.short last (by simp [hwalk])) hmarks false n

end

/-- Every segment keeps the registers and the writes in step with the walk. -/
theorem Follows.accept {c : CtxNum} {o : StartOperands} {segs : List Segment} {r : CoRegs} {ws : List OutWrite}
    (h : Follows c o segs r ws) (g : Segment) (n : Nat) :
    Follows c o (segs ++ [g]) (acceptSegment c g.addr g.len r n).regs
      (ws ++ (acceptSegment c g.addr g.len r n).write.toList) := by
  rcases List.eq_nil_or_concat' (walk segs) with hwalk | ⟨init, last, hwalk⟩
  · exact h.accept_first g n hwalk
  · by_cases ha : g.addr.toNat = last.stop
    · exact h.accept_merge g n hwalk ha
    · exact h.accept_close g n hwalk ha

/-- The end of the list closes the last range, so that every range is counted and the entries of `COALESCE` are
written (R153, R159). -/
theorem Follows.finish {c : CtxNum} {o : StartOperands} {segs : List Segment} {r : CoRegs} {ws : List OutWrite}
    (h : Follows c o segs r ws) (n : Nat) :
    (finishList c r n).regs.operands = o ∧
    (finishList c r n).regs.coCount.toNat = min (coalesceTotal segs) (2 ^ 32 - 1) ∧
    Written c (Unmarked o.wlen segs) (coalesceEntries segs o.off o.wlen o.maxOut.toNat o.ps)
      (ws ++ (finishList c r n).write.toList) := by
  unfold coalesceTotal
  rcases List.eq_nil_or_concat' (walk segs) with hwalk | ⟨init, last, hwalk⟩
  · obtain ⟨_, hoperands, hrange, hcount, _, hwritten⟩ := h
    rw [hwalk] at hrange hcount hwritten
    have hidle : finishList c r n = ⟨r, none, n⟩ := if_neg (by simp [r.range?_eq_none_iff.mp hrange])
    rw [hidle, hwalk, Option.toList_none, List.append_nil]
    refine ⟨hoperands, hcount, ?_⟩
    rw [coalesceEntries_of_empty _ _ _ _ _ hwalk]
    simpa [firstTrimmed] using hwritten
  · obtain ⟨hrange, hv, _, hcount, hwritten⟩ := h.of_open hwalk
    obtain ⟨_, hoperands, _, _, hundef, _⟩ := h
    have hclose : finishList c r n = closeRange true c r n := if_pos hv
    rw [hclose, closeRange_regs]
    refine ⟨hoperands, ?_, ?_⟩
    · rw [bumpCount_toNat, nextCount, hcount, hwalk, List.length_append, List.length_singleton]
      omega
    · rw [coalesceEntries_concat _ _ _ _ _ _ _ hwalk]
      exact hwritten.closeRange hoperands hrange hcount (fun hun => hun.short last (by simp [hwalk])) hundef true n

/-! ### A whole transaction on the block (R161) -/

/-- The commands of a transaction before its `CO_END`. -/
def openingCommands (c : CtxNum) (o : StartOperands) (segs : List Segment) : List Instr :=
  .coStart c o.maxOut o.off o.wlen o.ps :: segs.map fun g => .coSeg c g.addr g.len

theorem openingCommands_concat (c : CtxNum) (o : StartOperands) (segs : List Segment) (g : Segment) :
    openingCommands c o (segs ++ [g]) = openingCommands c o segs ++ [.coSeg c g.addr g.len] := by
  simp [openingCommands]

theorem transaction_eq (c : CtxNum) (o : StartOperands) (segs : List Segment) :
    transaction c o.maxOut o.off o.wlen o.ps segs = openingCommands c o segs ++ [.coEnd c] := rfl

theorem instrContext_of_mem_transaction (c : CtxNum) (o : StartOperands) (segs : List Segment) :
    ∀ i ∈ transaction c o.maxOut o.off o.wlen o.ps segs, instrContext i = some c := by
  intro i hi
  simp only [transaction, List.mem_append, List.mem_cons, List.mem_map, List.not_mem_nil, or_false] at hi
  rcases hi with (rfl | ⟨g, _, rfl⟩) | rfl <;> rfl

theorem inFlightWrites_concat (fs : List InFlight) (q : Response) (w : Option OutWrite) :
    inFlightWrites (fs ++ [⟨q, w⟩]) = inFlightWrites fs ++ w.toList := by
  cases w <;> simp [inFlightWrites_append]

section
variable {c : CtxNum} {s : State} (hc : ctxExists s.params c = true) (o : StartOperands)
include hc

/-- Up to its last segment a transaction runs and follows the walk. -/
theorem runs_openingCommands (segs : List Segment) :
    ∃ fs t, Runs (openingCommands c o segs) s fs t ∧ OpenContext t c ∧
      Follows c o segs (t.context c) (inFlightWrites fs) := by
  induction segs using List.reverseRecOn with
  | nil =>
    have hexec := exec_coStart_of_exists c s o.maxOut o.off o.wlen o.ps hc
    refine ⟨_, _, .cons hexec rfl (.nil _), ⟨hc, ?_⟩, ?_⟩ <;> rw [State.complete_context_self]
    · rfl
    · exact follows_startRegs c o.maxOut o.off o.wlen o.ps
  | append_singleton segs g ih =>
    obtain ⟨fs, t, hruns, hopen, hfollows⟩ := ih
    have hexec := exec_coSeg_of_open c g.addr g.len t hopen
    obtain ⟨hexists, _⟩ := hopen
    have hnext := hfollows.accept g t.draws
    rw [openingCommands_concat]
    refine ⟨_, _, hruns.concat hexec rfl, ⟨hexists, ?_⟩, ?_⟩ <;> rw [State.complete_context_self]
    · exact hnext.busy
    · rw [inFlightWrites_concat]
      exact hnext

/-- What a whole transaction of fewer than 2^32 ranges does, on any input: it takes state `s` to state `t`, its last
response is that of `f`, and its writes are `ws`. -/
structure Coalesces (c : CtxNum) (o : StartOperands) (segs : List Segment) (s t : State) (f : InFlight)
    (ws : List OutWrite) : Prop where
  exec : execAll (transaction c o.maxOut o.off o.wlen o.ps segs) s = .next t
  last : t.rspBuf.getLast? = some f
  total : f.rsp.r0.toNat = coalesceTotal segs
  count : f.rsp.r1.toNat = min (coalesceTotal segs) o.maxOut.toNat
  overflow : f.rsp.ovf = true ↔ o.maxOut.toNat < coalesceTotal segs
  ended : t.context c = CoRegs.reset
  others : OtherContextsKept c s t
  params : t.params = s.params
  writes : inFlightWrites (t.rspBuf.drop s.rspBuf.length) = ws
  out : t.out = applyWrites s.params s.out ws
  written : Written c (Unmarked o.wlen segs) (coalesceEntries segs o.off o.wlen o.maxOut.toNat o.ps) ws

theorem exists_coalesces (segs : List Segment) (htotal : coalesceTotal segs < 2 ^ 32) :
    ∃ t f ws, Coalesces c o segs s t f ws := by
  obtain ⟨fs, t, hruns, hopen, hfollows⟩ := runs_openingCommands hc o segs
  have hexec := exec_coEnd_of_open c t hopen
  obtain ⟨hoperands, hcount, hwritten⟩ := hfollows.finish t.draws
  have hall := hruns.concat hexec rfl
  have hmax : (finishList c (t.context c) t.draws).regs.cfgMaxout = o.maxOut := by rw [← hoperands, CoRegs.operands]
  rw [← transaction_eq] at hall
  rw [Nat.min_eq_left (by omega)] at hcount
  obtain ⟨hparams, _⟩ := hall.portsKept
  refine ⟨_, _, _, hall.execAll, List.getLast?_concat, hcount, ?count, ?overflow, State.complete_context_self t c _ _,
    hall.otherContextsKept (instrContext_of_mem_transaction c o segs), hparams,
    congrArg inFlightWrites hall.rspBuf_drop, hall.out, ?written⟩
  case count => rw [endResponse_r1, hcount, hmax]
  case overflow => rw [endResponse_ovf, hcount, hmax]
  case written =>
    rw [inFlightWrites_concat]
    exact hwritten

end

section
variable {c : CtxNum} {o : StartOperands} {segs : List Segment} {s t : State} {f : InFlight}
  {ws : List OutWrite} (h : Coalesces c o segs s t f ws)
include h

/-- Every byte outside the entries of `COALESCE` is as it was (R155). -/
theorem Coalesces.outByte_outside (a : Nat)
    (ha : ∀ k < min (coalesceTotal segs) o.maxOut.toNat, ¬ inEntry s.params c (BitVec.ofNat 32 k) a) :
    t.outByte a = s.outByte a := by
  rw [State.outByte, h.out, State.outByte]
  exact h.written.read_outside s.params s.out a (by rwa [coalesceEntries_length])

/-- The indices written are those of `COALESCE`, each once and in order (R155). -/
theorem Coalesces.map_index :
    (inFlightWrites (t.rspBuf.drop s.rspBuf.length)).map (fun w => w.index.toNat) =
      List.range (min (coalesceTotal segs) o.maxOut.toNat) := by
  rw [h.writes, h.written.map_index, coalesceEntries_length]

/-- Each entry of OUT holds the write with its index. -/
theorem Coalesces.outEntry (k : Nat) (hk : k < ws.length) :
    t.outEntry c (BitVec.ofNat 32 k) = some (ws[k].addr, ws[k].len) := by
  have hread := h.written.readEntry s.params s.out k hk
  rwa [← h.out, ← h.params] at hread

/-- Each entry of `COALESCE` stands in OUT, with its contents where the input is defined (R153). -/
theorem Coalesces.outEntry_of_entry (k : Nat) (e : ExactEntry)
    (he : (coalesceEntries segs o.off o.wlen o.maxOut.toNat o.ps)[k]? = some e) :
    ∃ A L, t.outEntry c (BitVec.ofNat 32 k) = some (A, L) ∧
      (undefinedInput segs o.off o.wlen o.maxOut.toNat o.ps = false → exact A = e.addr ∧ exact L = e.len) := by
  obtain ⟨hk, rfl⟩ := List.getElem?_eq_some_iff.mp he
  have hkw := h.written.length.symm ▸ hk
  refine ⟨_, _, h.outEntry k hkw, fun hdefined => ?_⟩
  obtain ⟨hmarks, htrims⟩ := (undefinedInput_eq_false_iff ..).mp hdefined
  obtain ⟨hlen, haddr⟩ := htrims _ (List.getElem_mem hk)
  exact (h.written.entry k hkw hk).contents hmarks hlen haddr

end

/-! ### The statements about a whole transaction -/

/-- Settles O55. -/
theorem transactionIsCoalesce : Obligations.TransactionIsCoalesce := by
  intro s c m off wlen ps segs hc hdefined htotal written
  obtain ⟨t, f, ws, h⟩ := exists_coalesces hc ⟨m, off, wlen, ps⟩ segs htotal
  refine ⟨t, f, h.exec, h.last, h.total, h.count, h.overflow, h.ended, h.others, h.map_index, fun k hk => ?entries,
    h.outByte_outside⟩
  case entries =>
    have he := List.getElem?_eq_getElem (hk.trans_eq (coalesceEntries_length off wlen ps m.toNat segs).symm)
    obtain ⟨A, L, hout, hcontents⟩ := h.outEntry_of_entry k _ he
    obtain ⟨hA, hL⟩ := hcontents hdefined
    exact ⟨_, A, L, he, hout, hA, hL⟩

/-- Settles O56. -/
theorem undefinedInputKeepsCountAndIndices : Obligations.UndefinedInputKeepsCountAndIndices := by
  intro s c m off wlen ps segs hc htotal written
  obtain ⟨t, f, ws, h⟩ := exists_coalesces hc ⟨m, off, wlen, ps⟩ segs htotal
  exact ⟨t, f, h.exec, h.last, h.total, h.count, h.overflow, h.ended, h.others, h.map_index, h.outByte_outside⟩

/-- Settles O57: no index is below a `max_out` of 0. -/
theorem countingPassWritesNothing : Obligations.CountingPassWritesNothing := by
  intro s c off wlen ps segs hc htotal
  obtain ⟨t, f, ws, h⟩ := exists_coalesces hc ⟨0#32, off, wlen, ps⟩ segs htotal
  have hcount := h.count
  refine ⟨t, f, h.exec, h.last, h.total, ?count, h.overflow, fun a => h.outByte_outside a (by simp)⟩
  case count => exact BitVec.eq_of_toNat_eq (by simpa using hcount)

/-- Settles O58: the last range does not fit, so no entry has the last trim. -/
theorem overflowTrimsOnlyFirst : Obligations.OverflowTrimsOnlyFirst := by
  intro s c m off wlen ps segs hc hover htotal
  obtain ⟨t, f, ws, h⟩ := exists_coalesces hc ⟨m, off, wlen, ps⟩ segs htotal
  have hentry (k : Nat) (r : MergedRange) (hk : k < m.toNat) (hr : (walk segs)[k]? = some r) :
      (coalesceEntries segs off wlen m.toNat ps)[k]? = some (trimmedEntry off k r) := by
    rw [coalesceEntries_of_overflow off wlen ps m.toNat segs hover, firstTrimmed_getElem? off m.toNat _ k hk, hr]
    rfl
  refine ⟨t, f, h.exec, h.last, h.overflow.mpr hover, h.total, ?count, ?outside, fun k hk => ?present,
    fun hdefined k r hk hr => ?contents⟩
  case count => exact BitVec.eq_of_toNat_eq (h.count.trans (Nat.min_eq_right hover.le))
  case outside => exact fun a ha => h.outByte_outside a fun k hk => ha k (hk.trans_le (min_le_right _ _))
  case present =>
    have hr := List.getElem?_eq_getElem (l := walk segs) (hk.trans hover)
    obtain ⟨A, L, hout, _⟩ := h.outEntry_of_entry k _ (hentry k _ hk hr)
    rw [hout]
    rfl
  case contents =>
    obtain ⟨A, L, hout, hcontents⟩ := h.outEntry_of_entry k _ (hentry k r hk hr)
    obtain ⟨hA, hL⟩ := hcontents hdefined
    refine ⟨A, L, hout, ?_, ?_⟩ <;> simp only [hA, hL, trimmedEntry] <;> split_ifs <;>
      simp [trimFirst, MergedRange.entry]

/-! ### Trimmed ranges (R153, R165) -/

/-- A range without its first `n` bytes. -/
def MergedRange.dropFront (n : Nat) (r : MergedRange) : MergedRange := ⟨r.addr + n, r.len - n⟩

/-- A range without its last `n` bytes. -/
def MergedRange.dropBack (n : Nat) (r : MergedRange) : MergedRange := ⟨r.addr, r.len - n⟩

section
variable (r : MergedRange)

theorem rangeBytes_length : (rangeBytes r.addr r.len).length = r.len := List.length_range'

theorem trimFirst_entry (off : Word64) (h : off.toNat ≤ r.len) :
    trimFirst off r.entry = (r.dropFront off.toNat).entry := by
  simp [trimFirst, MergedRange.entry, MergedRange.dropFront, exact, Nat.cast_sub h]

theorem trimLast_entry (off wlen : Word64) (ps : PageShift) (h : tail off wlen ps ≤ r.len) :
    trimLast off wlen ps r.entry = (r.dropBack (tail off wlen ps)).entry := by
  simp [trimLast, MergedRange.entry, MergedRange.dropBack, Nat.cast_sub h]

theorem coveredBytes_dropFront (rs : List MergedRange) (n : Nat) (h : n ≤ r.len) :
    coveredBytes (r.dropFront n :: rs) = (coveredBytes (r :: rs)).drop n := by
  change rangeBytes (r.dropFront n).addr (r.dropFront n).len ++ coveredBytes rs =
    (rangeBytes r.addr r.len ++ coveredBytes rs).drop n
  rw [List.drop_append_of_le_length (by rwa [rangeBytes_length])]
  simp [rangeBytes, List.drop_range', MergedRange.dropFront]

theorem coveredBytes_dropBack (rs : List MergedRange) (n : Nat) (h : n ≤ r.len) :
    coveredBytes (rs ++ [r.dropBack n]) =
      (coveredBytes (rs ++ [r])).take ((coveredBytes (rs ++ [r])).length - n) := by
  simp only [coveredBytes_append, coveredBytes_singleton, List.length_append, rangeBytes_length]
  rw [Nat.add_sub_assoc h, List.take_length_add_append]
  simp [rangeBytes, List.take_range'_of_length_ge, MergedRange.dropBack]

theorem coveredBytes_length (rs : List MergedRange) : (coveredBytes rs).length = (rs.map MergedRange.len).sum := by
  simp [coveredBytes, rangeBytes, List.length_flatMap]

end

theorem regionBytes_length (segs : List Segment) : (regionBytes segs).length = (segs.map fun g => g.len.toNat).sum := by
  simp [regionBytes, rangeBytes, List.length_flatMap]

/-! ### The pages of the window (R152, R165) -/

/-- The pages that the window touches are its offset, its bytes and its tail. -/
theorem window_add_tail (off wlen : Word64) (ps : PageShift) :
    pageSize ps * ((off.toNat + wlen.toNat + pageSize ps - 1) / pageSize ps) =
      off.toNat + wlen.toNat + tail off wlen ps := by
  have hpage : 0 < pageSize ps := Nat.two_pow_pos _
  rw [tail_eq]
  generalize off.toNat + wlen.toNat = x
  have hdiv := Nat.div_add_mod x (pageSize ps)
  have hlt := Nat.mod_lt x hpage
  split_ifs with hrem
  · have hpages : (x + pageSize ps - 1) / pageSize ps = x / pageSize ps :=
      Nat.div_eq_of_lt_le (by rw [Nat.mul_comm]; omega) (by rw [Nat.succ_mul, Nat.mul_comm]; omega)
    rw [hpages]
    omega
  · have hpages : (x + pageSize ps - 1) / pageSize ps = x / pageSize ps + 1 :=
      Nat.div_eq_of_lt_le (by rw [Nat.succ_mul, Nat.mul_comm]; omega)
        (by rw [Nat.succ_mul, Nat.succ_mul, Nat.mul_comm]; omega)
    rw [hpages, Nat.mul_succ]
    omega

theorem tail_lt_pageSize (off wlen : Word64) (ps : PageShift) : tail off wlen ps < pageSize ps := by
  have hpage : 0 < pageSize ps := Nat.two_pow_pos _
  rw [tail_eq]
  split_ifs <;> omega

/-! ### The ranges of the window (R165) -/

/-- The ranges of a region without the window's offset at the front and its tail at the back. -/
def windowRanges (off tail : Nat) (rs : List MergedRange) : List MergedRange :=
  (rs.modifyHead (MergedRange.dropFront off)).modifyLast (MergedRange.dropBack tail)

section
variable {rs : List MergedRange} {page off len tail : Nat} (hpage : ∀ r ∈ rs, page ≤ r.len) (hoff : off < page)
  (htail : tail < page) (hlen : 1 ≤ len) (hsum : (coveredBytes rs).length = off + len + tail)
include hpage hoff htail hlen hsum

/-- The offset lies in the first range and the tail in what is left of the last one, be it the same range or not. -/
theorem windowRanges_split : ∃ first rest init last, rs = first :: rest ∧ off < first.len ∧
    first.dropFront off :: rest = init ++ [last] ∧ tail < last.len ∧
    windowRanges off tail rs = init ++ [last.dropBack tail] := by
  cases rs with
  | nil =>
    simp only [coveredBytes, List.flatMap_nil, List.length_nil] at hsum
    omega
  | cons first rest =>
    obtain ⟨hfirst, hrest⟩ := List.forall_mem_cons.mp hpage
    obtain ⟨init, last, hsplit⟩ := (List.eq_nil_or_concat' (first.dropFront off :: rest)).resolve_left (by simp)
    refine ⟨first, rest, init, last, rfl, by omega, hsplit, ?_, ?_⟩
    · cases init with
      | nil =>
        obtain ⟨rfl, rfl⟩ := List.cons.inj hsplit
        rw [coveredBytes_singleton, rangeBytes_length] at hsum
        simp only [MergedRange.dropFront]
        omega
      | cons x init =>
        obtain ⟨_, rfl⟩ := List.cons.inj hsplit
        exact htail.trans_le (hrest last (by simp))
    · rw [windowRanges, List.modifyHead_cons, hsplit, List.modifyLast_concat]

/-- They cover the bytes of the region behind the offset, as far as the window goes. -/
theorem coveredBytes_windowRanges :
    coveredBytes (windowRanges off tail rs) = ((coveredBytes rs).drop off).take len := by
  obtain ⟨first, rest, init, last, rfl, hfirst, hsplit, hlast, hwindow⟩ :=
    windowRanges_split hpage hoff htail hlen hsum
  rw [hwindow, coveredBytes_dropBack last init tail hlast.le, ← hsplit,
    coveredBytes_dropFront first rest off hfirst.le, List.length_drop, hsum]
  congr 1
  omega

/-- None is empty, and none ends later than the ranges of the region do. -/
theorem windowRanges_bounds {bound : Nat} (hstop : ∀ r ∈ rs, r.stop ≤ bound) :
    ∀ r ∈ windowRanges off tail rs, 0 < r.len ∧ r.stop ≤ bound := by
  obtain ⟨first, rest, init, last, rfl, hfirst, hsplit, hlast, hwindow⟩ :=
    windowRanges_split hpage hoff htail hlen hsum
  have hfront : ∀ r ∈ first.dropFront off :: rest, 0 < r.len ∧ r.stop ≤ bound := by
    refine List.forall_mem_cons.mpr ⟨⟨?_, ?_⟩, fun r hr => ⟨?_, hstop r (List.mem_cons_of_mem _ hr)⟩⟩
    · simpa [MergedRange.dropFront] using hfirst
    · have := hstop first List.mem_cons_self
      simp only [MergedRange.stop, MergedRange.dropFront] at this ⊢
      omega
    · have := hpage r (List.mem_cons_of_mem _ hr)
      omega
  rw [hsplit] at hfront
  rw [hwindow]
  refine List.forall_mem_append.mpr ⟨fun r hr => hfront r (List.mem_append_left _ hr), ?_⟩
  obtain ⟨_, hstop⟩ := hfront last (by simp)
  simp only [List.forall_mem_singleton, MergedRange.stop, MergedRange.dropBack] at hstop ⊢
  omega

end

/-- Where all ranges fit and the trims lie inside them, `COALESCE` leaves the ranges of the window. -/
theorem coalesceEntries_eq_windowRanges {segs : List Segment} {off wlen : Word64} {maxOut page len : Nat}
    {ps : PageShift} (hfit : coalesceTotal segs ≤ maxOut) (hpage : ∀ r ∈ walk segs, page ≤ r.len)
    (hoff : off.toNat < page) (htail : tail off wlen ps < page) (hlen : 1 ≤ len)
    (hsum : (coveredBytes (walk segs)).length = off.toNat + len + tail off wlen ps) :
    coalesceEntries segs off wlen maxOut ps =
      (windowRanges off.toNat (tail off wlen ps) (walk segs)).map MergedRange.entry := by
  obtain ⟨first, rest, init, last, hwalk, hfirst, hsplit, hlast, hwindow⟩ :=
    windowRanges_split hpage hoff htail hlen hsum
  have hfront : firstTrimmed off maxOut (walk segs) = (init ++ [last]).map MergedRange.entry := by
    rw [firstTrimmed, List.take_of_length_le hfit, hwalk, List.map_cons, List.modifyHead_cons,
      trimFirst_entry first off hfirst.le, ← hsplit, List.map_cons]
  rw [coalesceEntries_of_fit off wlen ps maxOut segs hfit, hfront, hwindow, List.map_append, List.map_singleton,
    List.modifyLast_concat, trimLast_entry last off wlen ps hlast.le, List.map_append, List.map_singleton]

/-- The range that a write holds. -/
def OutWrite.range (w : OutWrite) : MergedRange := ⟨w.addr.toNat, w.len.toNat⟩

/-- On defined input the writes hold the entries, read as ranges. -/
theorem Written.map_range {c : CtxNum} {P : Prop} {rs : List MergedRange} {ws : List OutWrite}
    (h : Written c P (rs.map MergedRange.entry) ws) (hP : P) (haddr : ∀ r ∈ rs, r.addr < 2 ^ 64) :
    ws.map OutWrite.range = rs := by
  obtain ⟨hlength, hentry⟩ := h
  rw [List.length_map] at hlength
  refine List.ext_getElem (by rw [List.length_map, hlength]) fun k hk hk' => ?_
  obtain ⟨_, _, hcontents⟩ := hentry k (hlength ▸ hk') (by rwa [List.length_map])
  have hlt := haddr rs[k] (List.getElem_mem hk')
  rw [List.getElem_map] at hcontents ⊢
  obtain ⟨hA, hL⟩ := hcontents hP (by simp [MergedRange.entry]) (by simpa [MergedRange.entry] using mod_cast hlt)
  simp only [exact, MergedRange.entry, Nat.cast_inj] at hA hL
  rw [OutWrite.range, hA, hL]

/-- Settles O60: the entries are the walk's ranges without the offset and the tail, and the walk covers the region. -/
theorem transactionCoversWindow : Obligations.TransactionCoversWindow := by
  intro s c m off wlen ps segs hc hU3 hoff hwlen hU2 hpages hsum hfit
  obtain ⟨hinRange, hshort⟩ := (undefU3_eq_false_iff segs).mp hU3
  have hmarks : Unmarked wlen segs :=
    ⟨fun h => by simp [h] at hwlen, (undefU2_eq_false_iff segs).mp hU2, hinRange, hshort⟩
  have hpage : ∀ r ∈ walk segs, pageSize ps ≤ r.len :=
    walk_forall segs
      (fun g hg => let ⟨hpos, hmod⟩ := hpages g hg; Nat.le_of_dvd hpos (Nat.dvd_of_mod_eq_zero hmod))
      fun r g _ hr _ => hr.trans (Nat.le_add_right r.len g.len.toNat)
  have hstop : ∀ r ∈ walk segs, r.stop ≤ 2 ^ 64 := walk_forall segs hinRange fun r g ha _ hg => by
    simp only [MergedRange.stop, MergedRange.grow, Segment.range] at ha hg ⊢
    omega
  have htail := tail_lt_pageSize off wlen ps
  have hcovered : (coveredBytes (walk segs)).length = off.toNat + wlen.toNat + tail off wlen ps := by
    rw [coveredBytes_walk, regionBytes_length, hsum, window_add_tail]
  have hentries := coalesceEntries_eq_windowRanges hfit hpage hoff htail hwlen hcovered
  have hbounds := windowRanges_bounds hpage hoff htail hwlen hcovered hstop
  have hbytes := coveredBytes_windowRanges hpage hoff htail hwlen hcovered
  obtain ⟨t, f, ws, h⟩ := exists_coalesces hc ⟨m, off, wlen, ps⟩ segs (hfit.trans_lt m.isLt)
  have hlength : ws.length = coalesceTotal segs := by
    rw [h.written.length, coalesceEntries_length, min_eq_left hfit]
  have hwritten := h.written
  rw [hentries] at hwritten
  have hranges := hwritten.map_range hmarks fun r hr => by
    have := hbounds r hr
    unfold MergedRange.stop at this
    omega
  refine ⟨t, ws.map fun w => (w.addr, w.len), h.exec, ?entries, ?bytes, ?sum, ?nonempty⟩
  case entries =>
    refine List.ext_getElem (by simp [hlength]) fun k hk _ => ?_
    have hk : k < ws.length := by simpa [hlength] using hk
    simp [h.outEntry k hk]
  case bytes =>
    rw [← coveredBytes_walk, ← hbytes, ← hranges, List.flatMap_map, coveredBytes, List.flatMap_map]
    rfl
  case sum =>
    have hlen := congrArg List.length hbytes
    rw [coveredBytes_length, ← hranges, List.length_take, List.length_drop, hcovered] at hlen
    simp only [List.map_map] at hlen ⊢
    exact hlen.trans (by omega)
  case nonempty =>
    rw [← hranges] at hbounds
    simp only [List.forall_mem_map] at hbounds ⊢
    intro w hw
    obtain ⟨hpos, _⟩ := hbounds w hw
    exact hpos

end Sys2Proof.Machine

/-!
PROOF of the statement of spec/42_system.md: O10. First when a beat is illegal with cause 2, then `NOP`, whose one
legal beat is its encoding.
-/

namespace Sys2Proof

/-! ### When a beat is illegal with cause 2 (30_encoding.md R77, R79) -/

/-- Cause 2 is an assigned `OPCODE` with a must-be-zero bit of its format set (R79). -/
theorem decode_eq_nonzeroMbz_iff (b : Beat) :
    decode b = .error .nonzeroMbz ↔ ∃ o, fieldOpcode b = opcodeByte o ∧ b &&& mbzMask (formatOf o) ≠ 0#256 := by
  simp only [← opcodeOf_eq_some_iff]
  unfold decode
  cases opcodeOf (fieldOpcode b) with
  | none => simp
  | some o => by_cases hmbz : b &&& mbzMask (formatOf o) = 0#256 <;> simp [hmbz]

/-- A beat with an assigned `OPCODE` that is not the encoding of the command its fields hold has a must-be-zero bit set,
for the fields of the format and the must-be-zero bits are all the bits of a beat (R73). -/
theorem decode_eq_nonzeroMbz_of_ne_encode {b : Beat} (o : Opcode) (hop : fieldOpcode b = opcodeByte o)
    (hne : b ≠ encode (readOperands o b)) : decode b = .error .nonzeroMbz :=
  (decode_eq_nonzeroMbz_iff b).mpr ⟨o, hop, fun hmbz => hne (encode_readOperands b o hop hmbz).symm⟩

/-- The beat of `NOP` is all zeros (42_system.md R190). -/
theorem encode_nop : encode .nop = 0#256 := by
  decide

end Sys2Proof

namespace Sys2Proof.Machine

/-! ### `NOP` (42_system.md R190) -/

/-- The response of `NOP` is all zeros, for its `OP` is 0 too (R190). -/
theorem responseBeat_nop : responseBeat { op := opcodeByte .nop } = 0#128 := by
  decide

/-- Settles O10: `NOP` has no operands, so every legal beat with its `OPCODE` is the one encoding of `NOP`. -/
theorem nopAnswersZero : Obligations.NopAnswersZero := by
  refine ⟨fun s => ?answer, ?legal, fun b hop hb => ?illegal⟩
  case answer => exact ⟨_, _, rfl, rfl, responseBeat_nop, outKept_respond s _⟩
  case legal => exact decode_eq_ok_of_encode_eq encode_nop
  case illegal =>
    have hne : b ≠ encode (readOperands .nop b) := fun h => hb (h.trans encode_nop)
    exact decode_eq_nonzeroMbz_of_ne_encode .nop hop hne

end Sys2Proof.Machine

/-!
PROOFS of the statements of spec/60_exceptions.md: O40 to O42. First the commands that answer cause 3 or 4, then the
beats that answer each cause, in the order of the checks; last the legal commands.
-/

namespace Sys2Proof.Machine

/-! ### Commands that are illegal by their context (60_exceptions.md R202, R203) -/

section
variable {c : CtxNum} {s : State}

section
variable {o : Opcode} {effect : State}

theorem withOpenContext_of_absent (hc : ctxExists s.params c = false) :
    withOpenContext o c s effect = raiseIllegal (opcodeByte o) .badContext s := by
  simp [withOpenContext, withContext, hc]

theorem withOpenContext_of_idle (hc : ctxExists s.params c = true) (hidle : (s.context c).coBusy = false) :
    withOpenContext o c s effect = raiseIllegal (opcodeByte o) .outOfSequence s := by
  simp [withOpenContext, withContext, hc, hidle]

end

variable {i : Instr}

/-- A command to a context that does not exist answers cause 3, and its registers, which decide cause 4, do not matter
(R77, R203). -/
theorem exec_of_absent (hi : instrContext i = some c) (hc : ctxExists s.params c = false) :
    exec i s = .next (raiseIllegal (opcodeByte (instrOpcode i)) .badContext s) := by
  cases i with
  | coStart d m off wlen ps =>
    obtain rfl := Option.some.inj hi
    exact exec_coStart_of_absent d s m off wlen ps hc
  | coSeg d a l =>
    obtain rfl := Option.some.inj hi
    exact congrArg Host.Outcome.next (withOpenContext_of_absent hc)
  | coEnd d =>
    obtain rfl := Option.some.inj hi
    exact congrArg Host.Outcome.next (withOpenContext_of_absent hc)
  | _ => cases hi

/-- Only `CO_START` may come to an idle context: every other coalescer command answers cause 4 (R77). -/
theorem exec_of_idle (hi : instrContext i = some c) (hstart : instrOpcode i ≠ .coStart)
    (hc : ctxExists s.params c = true) (hidle : (s.context c).coBusy = false) :
    exec i s = .next (raiseIllegal (opcodeByte (instrOpcode i)) .outOfSequence s) := by
  cases i with
  | coStart d m off wlen ps => exact absurd rfl hstart
  | coSeg d a l =>
    obtain rfl := Option.some.inj hi
    exact congrArg Host.Outcome.next (withOpenContext_of_idle hc hidle)
  | coEnd d =>
    obtain rfl := Option.some.inj hi
    exact congrArg Host.Outcome.next (withOpenContext_of_idle hc hidle)
  | _ => cases hi

end

/-- Settles O41: the illegal-command response of R201 is all that `raiseIllegal` adds. -/
theorem misdirectedCoalescerCommands : Obligations.MisdirectedCoalescerCommands := by
  intro c s
  refine ⟨fun hc => ?absent, fun hc hidle => ?idle⟩
  case absent =>
    exact ⟨fun _ _ _ _ => ⟨_, exec_of_absent rfl hc, rfl⟩, fun _ _ => ⟨_, exec_of_absent rfl hc, rfl⟩,
      _, exec_of_absent rfl hc, rfl⟩
  case idle =>
    exact ⟨fun _ _ => ⟨_, exec_of_idle rfl nofun hc hidle, rfl⟩, _, exec_of_idle rfl nofun hc hidle, rfl⟩

/-! ### Illegal beats (R77, R201) -/

/-- Cause 1 is an `OPCODE` that selects no operation (30_encoding.md R78). -/
theorem decode_eq_reservedOpcode {b : Beat} (h : opcodeOf (fieldOpcode b) = none) :
    decode b = .error .reservedOpcode := by
  simp only [decode, h]

/-- A coalescer command takes its context from the field `CTX` (R72, R73). -/
theorem instrContext_readOperands {o : Opcode} (b : Beat) (ho : o = .coStart ∨ o = .coSeg ∨ o = .coEnd) :
    instrContext (readOperands o b) = some (fieldCtx b) := by
  rcases ho with rfl | rfl | rfl <;> rfl

section
variable {s : State} {b : Beat} {rest : List PortEvent} (hnext : s.nextEvent = some (.command b, rest))
include hnext

/-- An accepted beat that does not decode answers its cause (R77, R201). -/
theorem step_of_decode_error {k : IllegalCause} (h : decode b = .error k) :
    step s = .next (raiseIllegal (fieldOpcode b) k { s with port := rest }) := by
  rw [step_of_nextEvent hnext, performEvent, acceptBeat, h]

variable {o : Opcode} (hop : opcodeOf (fieldOpcode b) = some o) (hmbz : b &&& mbzMask (formatOf o) = 0#256)
include hop hmbz

/-- An accepted beat that decodes to a command that is illegal where the step finds it answers that command's cause,
with the beat's own `OPCODE` as `OP`. -/
theorem step_of_exec_illegal {k : IllegalCause}
    (hexec : exec (readOperands o b) { s with port := rest } =
      .next (raiseIllegal (opcodeByte (instrOpcode (readOperands o b))) k { s with port := rest })) :
    step s = .next (raiseIllegal (fieldOpcode b) k { s with port := rest }) := by
  have hbyte : fieldOpcode b = opcodeByte o := (opcodeOf_eq_some_iff _ o).mp hop
  have hdec : decode b = .ok (readOperands o b) := (decode_eq_ok_iff b _).mpr ⟨o, hbyte, hmbz, rfl⟩
  rw [stepRunsDecodedCommand.1 s b rest _ hnext hdec, hexec, instrOpcode_readOperands, hbyte]

end

/-- Settles O40: causes 1 and 2 are found by decoding, causes 3 and 4 by the command that is decoded. -/
theorem illegalBeatsAnswerLowestCause : Obligations.IllegalBeatsAnswerLowestCause := by
  intro s b rest hnext op c illegal
  refine ⟨fun hop => ?reserved, fun o hop hmbz => ?nonzero, fun o hop hmbz ho hc => ?absent,
    fun o hop hmbz ho hc hidle => ?idle⟩
  case reserved => exact step_of_decode_error hnext (decode_eq_reservedOpcode hop)
  case nonzero =>
    have hbyte : fieldOpcode b = opcodeByte o := (opcodeOf_eq_some_iff _ o).mp hop
    exact step_of_decode_error hnext ((decode_eq_nonzeroMbz_iff b).mpr ⟨o, hbyte, hmbz⟩)
  case absent =>
    have habsent : ctxExists s.params c = false := decide_eq_false (Nat.not_lt.mpr hc)
    exact step_of_exec_illegal hnext hop hmbz (exec_of_absent (instrContext_readOperands b ho) habsent)
  case idle =>
    have hstart : instrOpcode (readOperands o b) ≠ .coStart := by
      rw [instrOpcode_readOperands]
      rcases ho with rfl | rfl <;> decide
    exact step_of_exec_illegal hnext hop hmbz
      (exec_of_idle (instrContext_readOperands b (.inr ho)) hstart (decide_eq_true hc) hidle)

/-! ### Legal commands (R200) -/

/-- A coalescer operation that completes has its response as its answer. -/
theorem answer_of_complete {i : Instr} {s : State} {c : CtxNum} {x : CoResult} {r : Response}
    (h : exec i s = .next (s.complete c x r)) : answer i s = some r := by
  simp [answer, h]

/-- Settles O42: a coalescer command that passes the checks of causes 3 and 4 completes with the response of its rule,
and every other command only responds. -/
theorem legalCommandsAnswerLegally : Obligations.LegalCommandsAnswerLegally := by
  intro i s hwf hseg hend
  cases i with
  | coStart c m off wlen ps =>
    exact ⟨_, answer_of_complete (exec_coStart_of_exists c s m off wlen ps hwf), rfl, rfl, rfl⟩
  | coSeg c a l =>
    exact ⟨_, answer_of_complete (exec_coSeg_of_open c a l s ⟨hwf, hseg c a l rfl⟩), rfl, rfl, rfl⟩
  | coEnd c => exact ⟨_, answer_of_complete (exec_coEnd_of_open c s ⟨hwf, hend c rfl⟩), rfl, rfl, rfl⟩
  | _ => exact ⟨_, answer_of_respond _ s _ rfl, rfl, rfl, rfl⟩

end Sys2Proof.Machine

/-!
PROOFS of the statements of spec/70_reset_and_hazards.md: O26, O49 to O51. First the state after reset; then what a
reset of the running block leaves in OUT; last the producer's commit protocol on the block's responses.
-/

namespace Sys2Proof.Machine

/-! ### The state after reset (70_reset_and_hazards.md R230) -/

section
variable (p : Config.Params)

@[simp] theorem State.resetWith_context (c : CtxNum) : (State.resetWith p).context c = CoRegs.reset := by
  simp [State.resetWith, State.context]

theorem State.resetWith_hasRoom : (State.resetWith p).hasRoom = true :=
  (State.hasRoom_iff _).mpr (Nat.succ_pos p.rspDepthLess1)

end

/-- Settles O50. -/
theorem resetStateIsIdle : Obligations.ResetStateIsIdle := fun p =>
  ⟨State.resetWith_context p, rfl, State.resetWith_hasRoom p⟩

/-- Settles O51: a context at reset is good, and nothing is written or in flight. -/
theorem resetMeetsInvariant : Obligations.ResetMeetsInvariant := fun p =>
  { memory := State.resetWith_wf p
    contexts := fun c => by
      rw [State.resetWith_context]
      exact CoRegs.reset_good
    absent := fun c _ => State.resetWith_context p c
    depth := Nat.zero_le _
    responses := fun _ hf => absurd hf List.not_mem_nil }

/-! ### What reset leaves in OUT (R231) -/

/-- A byte after a list of writes is as it was before them, or one of them put it there. -/
theorem applyWrites_read_cases (p : Config.Params) (ws : List OutWrite) (m : Memory) (a : Nat) :
    (applyWrites p m ws).read a = m.read a ∨
      ∃ w ∈ ws, ∃ j < 16, a = entryAddr p w.ctx w.index + j ∧
        (applyWrites p m ws).read a = (entryBytes w.addr w.len)[j]? := by
  induction ws generalizing m with
  | nil => exact .inl rfl
  | cons w ws ih =>
    rcases ih (applyWrite p m w) with hkept | ⟨w', hw', hlater⟩
    · by_cases hout : a < entryAddr p w.ctx w.index ∨ entryAddr p w.ctx w.index + 16 ≤ a
      · exact .inl (hkept.trans (applyWrite_read_outside p m w a hout))
      · obtain ⟨j, rfl⟩ := Nat.exists_eq_add_of_le (show entryAddr p w.ctx w.index ≤ a by omega)
        have hj : j < 16 := by omega
        exact .inr ⟨w, List.mem_cons_self, j, hj, rfl, hkept.trans (applyWrite_read_entry p m w j hj)⟩
    · exact .inr ⟨w', List.mem_cons_of_mem w hw', hlater⟩

/-- With no response in flight OUT is what the delivered commands left. -/
theorem State.out_of_rspBuf_nil (s : State) (h : s.rspBuf = []) : s.out = s.settled := by
  rw [State.out, h]
  rfl

theorem State.resetBlock_out (s : State) :
    s.resetBlock.out = applyWrites s.params s.settled (survivingWrites s.draws s.rspBuf) :=
  s.resetBlock.out_of_rspBuf_nil rfl

/-- Settles O49: what survives is some of the writes in flight, and none of them where there is none. -/
theorem resetKeepsDeliveredOutput : Obligations.ResetKeepsDeliveredOutput := by
  intro s rest hnext
  have hsub := survivingWrites_sublist s.draws s.rspBuf
  have hout := State.resetBlock_out { s with port := rest }
  refine ⟨({ s with port := rest } : State).resetBlock, step_of_nextEvent hnext, State.resetBlock_context _, rfl, rfl,
    rfl, rfl, ⟨_, hsub, hout⟩, fun a => ?byte, fun hempty a => ?idle⟩
  case byte =>
    rw [State.outByte, hout]
    exact (applyWrites_read_cases s.params _ s.settled a).imp_right fun ⟨w, hw, hbyte⟩ => ⟨w, hsub.subset hw, hbyte⟩
  case idle =>
    rw [State.outByte, hout, State.outByte, s.out_of_rspBuf_nil hempty, hempty]
    rfl

/-! ### The producer's commit protocol (R237) -/

theorem answer_ringAdvance (i b k : Word32) (s : State) :
    answer (.ringAdvance i b k) s = some (ringResponse .ringAdvance
      (advOk (exact i) (exact b) (exact k)) (advance (exact i) (exact b) (exact k))) :=
  answer_of_respond _ s _ rfl

/-- A sum of an exact value and an operand is not reduced where it has 32 bits. -/
theorem exact_trunc32_add (v : Int) (n : Word32) (h0 : 0 ≤ v) (h : v + exact n < 2 ^ 32) :
    exact (trunc32 v + n) = v + exact n := by
  have hn : 0 ≤ exact n := Int.natCast_nonneg _
  rw [← exact_trunc32 (v + exact n) (by omega) h, trunc32_add, trunc32_exact]

section
variable {x : SlotRange} {i k n : Word32} (h : x.StartsAt i.toNat k.toNat)
include h

/-- The size of a range as its response gives it is the exact size. -/
theorem SlotRange.StartsAt.exact_size : exact (trunc32 x.stop - trunc32 x.start) = rangeSize x := by
  obtain ⟨-, hstart0, hle, hstop, -, -⟩ := h
  rw [← trunc32_sub]
  exact exact_trunc32 _ (by omega) (by omega)

/-- `RING_ADVANCE` by `n` slots of a range in a response answers the range's counter moved on by `n`, which `cap` at
most `CAP_MAX` keeps below 2^32. -/
theorem SlotRange.StartsAt.answer_advance (s : State) (hk : k.toNat ≤ 2 ^ 31) (hn : exact n ≤ rangeSize x) :
    ∃ q, answer (.ringAdvance (trunc32 x.start + n) (trunc32 x.base) k) s = some q ∧ q.rv = true ∧
      exact q.r0 = (exact i + exact n) % (2 * exact k) := by
  have hn0 : 0 ≤ exact n := Int.natCast_nonneg _
  have hcap : exact k ≤ 2 ^ 31 := Int.ofNat_le.mpr hk
  have hadvance : advance _ _ (exact k) = (exact i + exact n) % (2 * exact k) := h.advance_eq hn0 hn
  obtain ⟨hbase, hstart0, -, hstop, hstart, -⟩ := h
  rw [show (k.toNat : Int) = exact k from rfl] at hbase hstop hstart
  have hmod0 : 0 ≤ (exact i + exact n) % (2 * exact k) := Int.emod_nonneg _ (by omega)
  have hmod : (exact i + exact n) % (2 * exact k) < 2 ^ 32 := (Int.emod_lt_of_pos _ (by omega)).trans_le (by omega)
  rw [rangeSize] at hn
  refine ⟨_, answer_ringAdvance _ _ k s, ?_⟩
  rw [exact_trunc32_add _ n hstart0 (by omega), exact_trunc32 _ (by omega) (by omega)]
  refine ⟨decide_eq_true ⟨by omega, hbase, by omega, hadvance.trans_lt hmod⟩, ?_⟩
  simp only [ringResponse, hadvance, exact_trunc32 _ hmod0 hmod]

end

/-- On a valid ring `RING_OCCUPIED` answers the exact occupancy (R115). -/
theorem exact_trunc32_occ {p c k : Word32} (hring : ValidRing p.toNat c.toNat k.toNat) :
    exact (trunc32 (occ (exact p) (exact c) (exact k))) = occ (exact p) (exact c) (exact k) :=
  have ⟨_, _, hexact⟩ := validRingResultsNotTruncated.1 p c k hring (occ (exact p) (exact c) (exact k)) (by simp)
  hexact

/-- Settles O26: the block's responses are the exact results, for which the round trip of R120 is known. -/
theorem produceCommitKeepsRing : Obligations.ProduceCommitKeepsRing := by
  intro p c k n s r hring hk hr hn
  obtain rfl := Option.some.inj ((answer_ringProduceRange p c k s).symm.trans hr)
  have hrange := hring.produceRange_startsAt
  have hsize : exact n ≤ rangeSize (produceRange (exact p) (exact c) (exact k)) :=
    (Int.ofNat_le.mpr hn).trans_eq hrange.exact_size
  obtain ⟨q, hq, hrv, hr0⟩ := hrange.answer_advance s hk hsize
  obtain ⟨hocc, hvalid⟩ := hring.commit_produce (Int.natCast_nonneg n.toNat) hsize
  have hcounter : (q.r0.toNat : Int) = ((p.toNat : Int) + n.toNat) % (2 * k.toNat) := hr0
  rw [← hcounter] at hocc hvalid
  have hold := exact_trunc32_occ hring
  have hnew := exact_trunc32_occ ((ringValid_exact_iff q.r0 c k).mp hvalid)
  refine ⟨q, _, _, hq, hrv, mod_cast hcounter, answer_ringOccupied p c k s, answer_ringOccupied q.r0 c k s, hvalid,
    Int.ofNat.inj ?count⟩
  case count => exact hnew.trans (hocc.trans (congrArg (· + exact n) hold.symm))

end Sys2Proof.Machine
